-- ==== Sys2Proof/Word.lean ====
section
/-! DEFINITION. The widths of 00_scope.md rule R6 and rule R8: every value is unsigned. -/

namespace Sys2Proof

/-- A `u8`: a data byte, a table index, a status code. -/
abbrev Byte := BitVec 8

/-- A `u32`: polynomial, table entry, seed, checksum, command word (rule R6, `W`). -/
abbrev Word := BitVec 32

/-- The widest `length` operand rule R7 allows, `LENW = 64`; a core reads the low `LENW` bits. -/
abbrev LenWord := BitVec 64

/-- A handle is a `u8` (30_encoding.md rule R85). -/
abbrev Handle := Byte

/-- A table: exactly 256 entries of 32 bits, indexed 0 to 255 (rule R6 `NENT`, rule R13). -/
abbrev Table := Vector Word 256

end Sys2Proof
end

