-- ==== Sys2Proof/Config.lean ====
section
/-! DEFINITION. What an implementation of the core fixes (00_scope.md rule R7) and the values the
spec leaves unspecified (rule R11, `unspecified_N`). -/

namespace Sys2Proof

/-- The two open parameters of 00_scope.md rule R7. -/
structure Config where
  /-- `NSLOTS`: number of writable table slots. -/
  nslots : Nat
  /-- `LENW`: width in bits of the `length` operand. -/
  lenw : Nat
  deriving DecidableEq, Repr

/-- The defaults of rule R7: `NSLOTS = 4`, `LENW = 32`. -/
def Config.default : Config := { nslots := 4, lenw := 32 }

/-- An `unspecified_8` (rule R11): nothing is known of it, not even that two draws agree. -/
opaque Config.unspecified8 : Nat → Byte

/-- An `unspecified_32` (rule R11). -/
opaque Config.unspecified32 : Nat → Word

/-- An unspecified length, cut to `LENW` bits where it is used. -/
opaque Config.unspecifiedLen : Nat → LenWord

end Sys2Proof
end

