-- ==== Sys2Proof/Syntax.lean ====
section
/-! DEFINITION. Commands, requests and written commands (30_encoding.md rules R80, R83, R90). -/

namespace Sys2Proof

/-- `IEEE`, the first symbolic handle name of rule R90. -/
def ieee : Handle := 0x01

/-- `CASTAGNOLI`. -/
def castagnoli : Handle := 0x02

/-- `KOOPMAN`. -/
def koopman : Handle := 0x03

/-- `KOOPMAN_HD18`. -/
def koopmanHd18 : Handle := 0x04

/-- The three commands, one for each row of opcode_table.json, as `decode` of rule R83 gives
them: the handle comes from the command word, the other operands from the request's registers. -/
inductive Instr where
  /-- `BUILD`, 40_table_builder.md rule R114. -/
  | build
  /-- `RELEASE h`, 40_table_builder.md rule R117. -/
  | release (h : Handle)
  /-- `CRC h`, 41_checksum_accumulator.md rule R134. -/
  | crc (h : Handle)
  deriving DecidableEq, Repr

/-- A request as it stands in the interface registers (10_state.md rule R30, 30_encoding.md rule
R80). The registers a command does not use may hold anything. -/
structure Request where
  /-- `CMD`. -/
  cmd : Word
  /-- `ARG0`: polynomial or seed. -/
  arg0 : Word
  /-- `ARG1`: length; the core reads its low `LENW` bits. -/
  arg1 : LenWord
  /-- `DATA`: the bytes delivered so far, beat 0 first. -/
  data : List Byte
  deriving DecidableEq, Repr

/-- Interface registers that hold no request read as zero (notes/assumptions/5.md). -/
def Request.none : Request := { cmd := 0, arg0 := 0, arg1 := 0, data := [] }

/-- A command as rule R90 writes it: with its operands; the length is not written. -/
inductive Written where
  | build (poly : Word)
  | release (h : Handle)
  | crc (h : Handle) (seed : Word) (data : List Byte)
  deriving DecidableEq, Repr

/-- The command a written command spells. -/
def Written.instr : Written → Instr
  | .build _ => .build
  | .release h => .release h
  | .crc h _ _ => .crc h

end Sys2Proof
end

