-- ==== Sys2Proof/Machine/State.lean ====
section
/-! DEFINITION. The state of the core (10_state.md), its reset value (rule R34), and the reasons a
step can stop. -/

namespace Sys2Proof.Machine

/-- The working registers of 10_state.md rule R27, each local to one command. -/
structure Work where
  /-- `POLY`. -/
  poly : Word
  /-- `REM`. -/
  rem : Word
  /-- `ACC`. -/
  acc : Word
  /-- `LEN`: only its low `LENW` bits are ever non-zero. -/
  len : LenWord
  /-- `H`. -/
  h : Handle
  deriving DecidableEq, Repr

/-- One writable slot: its valid bit (rule R22) and its 256 entries (rule R21). -/
structure Slot where
  /-- `VALID[s]`. -/
  valid : Bool
  /-- `TBL[s]`. -/
  table : Table
  deriving DecidableEq, Repr

/-- The response registers (30_encoding.md rule R88). -/
structure Response where
  /-- `STATUS`. -/
  status : Byte
  /-- `RESULT`. -/
  result : Word
  deriving DecidableEq, Repr

/-- A fault of the host that 60_exceptions.md rule R199 asks a model to record. The core itself
goes on (rule R198; notes/assumptions/11.md, 12.md); a claim about well-used runs takes the record
to be empty. -/
inductive HostFault where
  /-- `CRC` with a handle that names no table: `execCrc` records it. Safe. -/
  | crcInvalidHandle (h : Handle)
  /-- A word that spells no command: `execIllegal` records it. Safe. -/
  | illegalCommand (cmd : Word)
  deriving DecidableEq, Repr

/-- The state. `NSLOTS` is the number of slots; it and `lenw` never change. -/
structure State where
  /-- `LENW`, the width of `ARG1` and `LEN` (00_scope.md rule R7). -/
  lenw : Nat
  /-- `VALID` and `TBL`, slot 0 first; its length is `NSLOTS`. -/
  slots : List Slot
  /-- `POLY`, `REM`, `ACC`, `LEN`, `H`. -/
  work : Work
  /-- The head stands in `CMD`, `ARG0`, `ARG1`, `DATA`; the tail is what the hosts supply after
  it, in that order (20_memory.md rule R62). Empty: no request, the core is idle. -/
  requests : List Request
  /-- `STATUS`, `RESULT`; `none`: no response yet. -/
  response : Option Response
  /-- The model's own: how many free values have been drawn (notes/assumptions/8.md). -/
  draws : Nat
  /-- The model's own: the host's faults so far, oldest first. -/
  hostFaults : List HostFault
  deriving DecidableEq, Repr

/-- A step that never ends a command. -/
inductive Fault where
  /-- `CRC` with fewer data bytes delivered than `ARG1` announces: the command waits for ever and
  gives no response (70_reset_and_hazards.md rule R238), a stuck state. `execCrc` raises it.
  Safe: no result is ever made up. -/
  | dataUnderrun
  deriving DecidableEq, Repr

/-- No meaning for a command. -/
inductive Refusal where
  /-- The command of this mnemonic has no meaning in the model yet: `exec` raises it. Safe. -/
  | notModelled (mnemonic : String)
  deriving DecidableEq, Repr

/-- What a slot holds after power-on: not valid (rule R34); the entries are the model's choice
(notes/assumptions/7.md). -/
def Slot.reset : Slot := { valid := false, table := Vector.replicate 256 0 }

/-- The working registers after power-on (notes/assumptions/6.md). -/
def Work.reset : Work := { poly := 0, rem := 0, acc := 0, len := 0, h := 0 }

/-- The core of parameters `c` right after reset (rule R34): no slot valid, no request, no
response. -/
def State.resetOf (c : Config) : State :=
  { lenw := c.lenw
    slots := List.replicate c.nslots Slot.reset
    work := Work.reset
    requests := []
    response := none
    draws := 0
    hostFaults := [] }

/-- The core of the default parameters right after reset. -/
def State.reset : State := State.resetOf Config.default

end Sys2Proof.Machine
end

