-- ==== Sys2Proof/Machine/Flags.lean ====
section
/-! DEFINITION. The core has no flags (10_state.md rule R29): the outcome of a command is the
status code of its response (30_encoding.md rule R88). -/

namespace Sys2Proof.Machine

/-- The four status codes that are ever produced (rule R88). -/
inductive Status where
  | ok
  | allocationFailure
  | invalidHandle
  | illegalCommand
  deriving DecidableEq, Repr

/-- The value of `STATUS` (rule R88). -/
def Status.code : Status → Byte
  | .ok => 0x00
  | .allocationFailure => 0x01
  | .invalidHandle => 0x02
  | .illegalCommand => 0x03

end Sys2Proof.Machine
end

