-- ==== Sys2Proof/Machine/Arithmetic.lean ====
section
/-! DEFINITION. The pure functions of the two families: 40_table_builder.md rules R111 to R113,
41_checksum_accumulator.md rules R131 to R133, and `crc32_bitwise` of 43_arithmetic_and_laws.md
rule R171. All shifts are logical (rule R161). -/

namespace Sys2Proof.Machine

/-- `zext_32` of a byte (00_scope.md rule R10). -/
def zext32 (b : Byte) : Word := b.setWidth 32

/-- `~a`, the pre- and post-complement (rule R10, rule R6 `XORIN`, `XOROUT`). -/
def complement (a : Word) : Word := a ^^^ 0xFFFFFFFF#32

/-- The remainder step (rule R111). -/
def rstep (P r : Word) : Word :=
  if r.getLsbD 0 then (r >>> 1) ^^^ P else r >>> 1

/-- `n` remainder steps. -/
def rsteps (P : Word) : Nat → Word → Word
  | 0, r => r
  | n + 1, r => rsteps P n (rstep P r)

/-- The entry function (rule R113): 8 remainder steps from `zext_32(b)`. -/
def entry (P : Word) (b : Byte) : Word := rsteps P 8 (zext32 b)

/-- The byte values 0 to 255 in order, each once (10_state.md rule R28). -/
def allBytes : List Byte := (List.range 256).map (BitVec.ofNat 8)

/-- `build_table(P)`, entry by entry (rules R112, R113). -/
def buildTable (P : Word) : Table :=
  ⟨⟨allBytes.map (entry P)⟩, by simp [allBytes]⟩

/-- Entry `i` of a table; a `u8` index is never out of range (20_memory.md rule R58). -/
def lookup (T : Table) (i : Byte) : Word := T[i.toNat]'i.isLt

/-- `((c xor zext_32(d)) and 0xFF)` as the `u8` it is (20_memory.md rule R51). -/
def tableIndex (c : Word) (d : Byte) : Byte := ((c ^^^ zext32 d) &&& 0x000000FF#32).setWidth 8

/-- The accumulator step (rule R131). -/
def accStep (T : Table) (c : Word) (d : Byte) : Word := lookup T (tableIndex c d) ^^^ (c >>> 8)

/-- The accumulator fold (rule R132). -/
def crcUpdate (T : Table) : Word → List Byte → Word
  | c, [] => c
  | c, d :: rest => crcUpdate T (accStep T c d) rest

/-- The checksum function (rule R133). -/
def crc32 (T : Table) (data : List Byte) (S : Word) : Word :=
  complement (crcUpdate T (complement S) data)

/-- The loop of `crc32_bitwise` (rule R171): no table, eight remainder steps a byte. -/
def bitwiseUpdate (P : Word) : Word → List Byte → Word
  | c, [] => c
  | c, d :: rest => bitwiseUpdate P (rsteps P 8 (c ^^^ zext32 d)) rest

/-- `crc32_bitwise` (rule R171). -/
def crc32Bitwise (P : Word) (data : List Byte) (S : Word) : Word :=
  complement (bitwiseUpdate P (complement S) data)

end Sys2Proof.Machine
end

