-- ==== Sys2Proof/Machine/ConstantTables.lean ====
section
/-! DEFINITION. The four constant tables `ROM` (10_state.md rule R23, 42_constant_tables.md rule
R150). They are constants: no command and no reset touches them (rule R152). -/

namespace Sys2Proof.Machine

/-- `POLYC` (rule R23): IEEE, CASTAGNOLI, KOOPMAN, KOOPMAN_HD18, in that order. -/
def polyC : Vector Word 4 := #v[0xedb88320, 0x82f63b78, 0xeb31d82e, 0x973afb51]

/-- `ROM[c]`, the table of `POLYC[c]` (rule R150). -/
def rom (c : Fin 4) : Table := buildTable polyC[c]

end Sys2Proof.Machine
end

