-- ==== Sys2Proof/Machine/Operands.lean ====
section
/-! DEFINITION. Operands (30_encoding.md rule R84) and handles (rule R85). -/

namespace Sys2Proof.Machine

/-- A value as a register of `lenw` bits holds it (10_state.md rule R30; notes/assumptions/16.md). -/
def toLen (lenw : Nat) (v : LenWord) : LenWord := BitVec.ofNat 64 (v.toNat % 2 ^ lenw)

/-- The request in the interface registers. -/
def State.request (s : State) : Request := s.requests.headD Request.none

/-- `ARG0`: the polynomial of `BUILD`, the seed of `CRC`. -/
def State.arg0 (s : State) : Word := s.request.arg0

/-- `ARG1`: the length of `CRC`. -/
def State.arg1 (s : State) : LenWord := toLen s.lenw s.request.arg1

/-- `DATA`: the bytes delivered so far. -/
def State.data (s : State) : List Byte := s.request.data

/-- `NSLOTS`. -/
def State.nslots (s : State) : Nat := s.slots.length

/-- The parameters of the core a state belongs to. -/
def State.config (s : State) : Config := { nslots := s.nslots, lenw := s.lenw }

/-- The `NULL` handle (rule R85). -/
def nullHandle : Handle := 0x00

/-- `is_null(h)` (rule R85). -/
def isNull (h : Handle) : Bool := h == nullHandle

/-- `is_const(h) = (0x01 <= h) and (h <= 0x04)` (rule R85). -/
def isConst (h : Handle) : Bool := decide (0x01 ≤ h.toNat) && decide (h.toNat ≤ 0x04)

/-- `const_of(h) = h - 1` (rule R85), for a constant handle. -/
def constOf (h : Handle) : Fin 4 := Fin.ofNat 4 (h.toNat - 1)

/-- The handle of constant table `c` (rule R150). -/
def handleOfConst (c : Fin 4) : Handle := BitVec.ofNat 8 (c.val + 1)

/-- `slot_of(h) = h[6:0]` (rule R85). -/
def slotOf (h : Handle) : Nat := (h.extractLsb' 0 7).toNat

/-- `is_dyn(h) = (h[7] == 1) and (h[6:0] < NSLOTS)` (rule R85). -/
def isDyn (nslots : Nat) (h : Handle) : Bool := h.getLsbD 7 && decide (slotOf h < nslots)

/-- `handle_of_slot(s) = 0x80 + s` (rule R85). -/
def handleOfSlot (k : Nat) : Handle := BitVec.ofNat 8 (0x80 + k)

end Sys2Proof.Machine
end

