-- ==== Sys2Proof/Machine/Ops.lean ====
section
/-! DEFINITION. The shared operations: the table store, the working registers, free values, and
the two ways a command ends (00_scope.md rule R11, 20_memory.md rules R50 to R54,
60_exceptions.md rule R190). -/

namespace Sys2Proof.Machine

/-- `VALID[k]`; a slot that does not exist is not valid. -/
def State.validBit (s : State) (k : Nat) : Bool := (s.slots[k]?).any Slot.valid

/-- `live(h)` (10_state.md rule R26). -/
def State.live (s : State) (h : Handle) : Bool := isDyn s.nslots h && s.validBit (slotOf h)

/-- `valid_handle(h)` (rule R26). -/
def State.validHandle (s : State) (h : Handle) : Bool := isConst h || s.live h

/-- `releasable(h)` (rule R26). -/
def State.releasable (s : State) (h : Handle) : Bool := s.live h

/-- `table_of(h)` (rule R26): defined exactly for a valid handle. -/
def State.tableOf (s : State) (h : Handle) : Option Table :=
  if isConst h then some (rom (constOf h))
  else if s.live h then (s.slots[slotOf h]?).map Slot.table
  else none

/-- `TableRead(h, i)` (20_memory.md rule R52): defined exactly for a valid handle, and without
side effect. -/
def State.tableRead (s : State) (h : Handle) (i : Byte) : Option Word :=
  (s.tableOf h).map (fun T => lookup T i)

/-- `TableWrite(k, i, v)` (rule R53): all 32 bits of one entry. -/
def State.tableWrite (k : Nat) (i : Byte) (v : Word) (s : State) : State :=
  { s with slots := s.slots.modify k (fun sl => { sl with table := sl.table.set i.toNat v i.isLt }) }

/-- `DataRead(k)` (rule R54): byte `k` of `DATA`, once it is delivered. -/
def State.dataRead (s : State) (k : Nat) : Option Byte := s.data[k]?

/-- `VALID[k] <- v`. -/
def State.setValid (k : Nat) (v : Bool) (s : State) : State :=
  { s with slots := s.slots.modify k (fun sl => { sl with valid := v }) }

/-- `alloc(VALID)` (40_table_builder.md rule R115): the smallest slot that is not valid. -/
def State.alloc (s : State) : Option Nat := s.slots.findIdx? (fun sl => !sl.valid)

/-- `POLY <- v`. -/
def State.setPoly (v : Word) (s : State) : State := { s with work := { s.work with poly := v } }

/-- `REM <- v`. -/
def State.setRem (v : Word) (s : State) : State := { s with work := { s.work with rem := v } }

/-- `ACC <- v`. -/
def State.setAcc (v : Word) (s : State) : State := { s with work := { s.work with acc := v } }

/-- `LEN <- v`. -/
def State.setLen (v : LenWord) (s : State) : State := { s with work := { s.work with len := v } }

/-- `H <- v`. -/
def State.setH (v : Handle) (s : State) : State := { s with work := { s.work with h := v } }

/-- Working registers about which nothing is known (10_state.md rule R27), from five draws. -/
def freeWork (lenw n : Nat) : Work :=
  { poly := Config.unspecified32 n
    rem := Config.unspecified32 (n + 1)
    acc := Config.unspecified32 (n + 2)
    len := toLen lenw (Config.unspecifiedLen (n + 3))
    h := Config.unspecified8 (n + 4) }

/-- 256 entries about which nothing is known (rule R33), from 256 draws. -/
def freeTable (n : Nat) : Table :=
  ⟨⟨(List.range 256).map (fun i => Config.unspecified32 (n + i))⟩, by simp⟩

/-- `TBL[k]` becomes unspecified (rule R33, 40_table_builder.md rule R117). -/
def State.forgetTable (k : Nat) (s : State) : State :=
  { s with
    slots := s.slots.modify k (fun sl => { sl with table := freeTable s.draws })
    draws := s.draws + 256 }

/-- The end of a command: the response is given, the request is done, the working registers are
unspecified (rule R27), and the core is idle again. -/
def State.finish (status : Status) (result : Word) (s : State) : State :=
  { s with
    work := freeWork s.lenw s.draws
    requests := s.requests.tail
    response := some { status := status.code, result := result }
    draws := s.draws + 5 }

/-- `respond(OK, result)` (00_scope.md rule R11). -/
def State.respond (result : Word) (s : State) : State := s.finish .ok result

/-- The exceptions (rule R11, 60_exceptions.md rule R191). -/
inductive Cause where
  /-- `AllocationFailure`. -/
  | allocationFailure
  /-- `InvalidHandle(h)` of `RELEASE`. -/
  | releaseInvalidHandle (h : Handle)
  /-- `InvalidHandle(h)` of `CRC`. -/
  | crcInvalidHandle (h : Handle)
  /-- `IllegalCommand(cmd)`. -/
  | illegalCommand (cmd : Word)
  deriving DecidableEq, Repr

/-- `code(E)` (rule R191). -/
def Cause.status : Cause → Status
  | .allocationFailure => .allocationFailure
  | .releaseInvalidHandle _ => .invalidHandle
  | .crcInvalidHandle _ => .invalidHandle
  | .illegalCommand _ => .illegalCommand

/-- `RESULT` beside an exception (30_encoding.md rule R89): 0, but for `CRC`'s `InvalidHandle`,
whose result is `unspecified_32`, drawn from `n`. -/
def Cause.result (n : Nat) : Cause → Word
  | .allocationFailure => 0
  | .releaseInvalidHandle _ => 0
  | .crcInvalidHandle _ => Config.unspecified32 n
  | .illegalCommand _ => 0

/-- The faults of the host that rule R199 asks a model to record beside an exception. -/
def Cause.hostFaults : Cause → List HostFault
  | .allocationFailure => []
  | .releaseInvalidHandle _ => []
  | .crcInvalidHandle h => [.crcInvalidHandle h]
  | .illegalCommand cmd => [.illegalCommand cmd]

/-- `raise E` (rule R190): the one way an exception is taken. No state element is written, the
response carries `code(E)`, and the core is idle and ready; nothing is saved, and control goes
nowhere. There is no return from an exception: after the response the next request is accepted
(rule R198). -/
def State.raise (c : Cause) (s : State) : State :=
  let s' := { s with draws := s.draws + 1, hostFaults := s.hostFaults ++ c.hostFaults }
  s'.finish c.status (c.result s.draws)

end Sys2Proof.Machine
end

