-- ==== Sys2Proof/Machine/ChecksumAccumulator.lean ====
section
/-! DEFINITION. Family 2: `CRC` (41_checksum_accumulator.md). -/

namespace Sys2Proof.Machine

/-- The loop of rule R134 from position `n` on, with `m` bytes to go: `none` when a byte it needs
is not there, for then the command waits for ever (70_reset_and_hazards.md rule R238;
notes/assumptions/13.md). -/
def crcLoop (T : Table) : Nat → Nat → State → Option State
  | 0, _, s => some s
  | m + 1, n, s =>
    match s.dataRead n with
    | none => none
    | some d => crcLoop T m (n + 1) (s.setAcc (accStep T s.work.acc d))

/-- `CRC` (rule R134). The handle is checked before any data byte is looked at
(notes/assumptions/14.md). -/
def execCrc (h : Handle) (s : State) : Host.Outcome State Fault Refusal :=
  let s := s.setH h
  match s.tableOf s.work.h with
  | none => .next (s.raise (.crcInvalidHandle s.work.h))
  | some T =>
    let s := (s.setLen s.arg1).setAcc (complement s.arg0)
    match crcLoop T s.work.len.toNat 0 s with
    | none => .fault .dataUnderrun
    | some s => .next (s.respond (complement s.work.acc))

end Sys2Proof.Machine
end

