-- ==== Sys2Proof/Machine/TableBuilder.lean ====
section
/-! DEFINITION. Family 1: `BUILD` and `RELEASE` (40_table_builder.md). -/

namespace Sys2Proof.Machine

/-- `repeat n times: REM <- rstep(POLY, REM)` (rule R114). -/
def remLoop : Nat → State → State
  | 0, s => s
  | n + 1, s => remLoop n (s.setRem (rstep s.work.poly s.work.rem))

/-- The work of `BUILD` for one byte value (rule R114). -/
def buildEntry (k : Nat) (s : State) (b : Byte) : State :=
  let s := remLoop 8 (s.setRem (zext32 b))
  s.tableWrite k b s.work.rem

/-- `for b in 0, 1, ..., 255` of rule R114. -/
def buildLoop (k : Nat) (s : State) : State := allBytes.foldl (buildEntry k) s

/-- `BUILD` (rule R114). -/
def execBuild (s : State) : Host.Outcome State Fault Refusal :=
  let s := s.setPoly s.arg0
  match s.alloc with
  | none => .next (s.raise .allocationFailure)
  | some k => .next (((buildLoop k s).setValid k true).respond (zext32 (handleOfSlot k)))

/-- `RELEASE` (rule R117). -/
def execRelease (h : Handle) (s : State) : Host.Outcome State Fault Refusal :=
  let s := s.setH h
  if s.releasable s.work.h then
    .next (((s.setValid (slotOf s.work.h) false).forgetTable (slotOf s.work.h)).respond 0)
  else .next (s.raise (.releaseInvalidHandle s.work.h))

end Sys2Proof.Machine
end

