-- ==== Sys2Proof/Machine/Dispatch.lean ====
section
/-! DEFINITION. One arm for each command (30_encoding.md rule R82). -/

namespace Sys2Proof.Machine

def exec (i : Instr) (s : State) : Host.Outcome State Fault Refusal :=
  match i with
  | .build => Sys2Proof.Machine.execBuild s
  | .release h => Sys2Proof.Machine.execRelease h s
  | .crc h => Sys2Proof.Machine.execCrc h s

end Sys2Proof.Machine
end

