-- ==== Sys2Proof/WellFormed.lean ====
section
/-! DEFINITION. Checks on parameters, requests and written commands. Every term of `Instr` is a
command with exactly one encoding (30_encoding.md rule R83), so `Instr` needs no check: a handle
that names no table is legal in the word and judged when the command executes (rule R86). -/

namespace Sys2Proof

/-- The ranges of 00_scope.md rule R7: `NSLOTS` 0 to 128, `LENW` 1 to 64. -/
def Config.wf (c : Config) : Bool :=
  decide (c.nslots ≤ 128) && decide (1 ≤ c.lenw) && decide (c.lenw ≤ 64)

/-- `ARG1` fits the `LENW` bits of its register (10_state.md rule R30). -/
def Request.lengthFits (lenw : Nat) (r : Request) : Bool := decide (r.arg1.toNat < 2 ^ lenw)

/-- A well-formed request of format `C`: `ARG1` fits and `len(DATA) == ARG1` (rule R84). -/
def Request.complete (lenw : Nat) (r : Request) : Bool :=
  r.lengthFits lenw && decide (r.data.length = r.arg1.toNat)

/-- A written command has a request exactly when its data's length fits `LENW` bits. -/
def Written.wf (lenw : Nat) : Written → Bool
  | .build _ => true
  | .release _ => true
  | .crc _ _ data => decide (data.length < 2 ^ lenw)

end Sys2Proof
end

