-- ==== Sys2Proof/Decode.lean ====
section
/-! DEFINITION. The decoder and the encoder of command words (30_encoding.md rules R81 to R83,
R86, R91). A command word crosses the interface as a number, not as bytes (20_memory.md rule
R57), so no byte order enters. -/

namespace Sys2Proof

/-- `CMD[7:0]` (rule R81). -/
def opcodeField (w : Word) : Byte := w.extractLsb' 0 8

/-- `CMD[15:8]` (rule R81). -/
def handleField (w : Word) : Handle := w.extractLsb' 8 8

/-- `CMD[31:16]` (rule R81). -/
def rsvField (w : Word) : BitVec 16 := w.extractLsb' 16 16

/-- Why a word spells no command (rule R86). -/
inductive Illegal where
  /-- `RSV` is not zero. -/
  | reservedBits
  /-- `BUILD` with a non-zero `HANDLE` field. -/
  | buildWithHandle
  /-- `OPCODE` `0x00` or `0x04` to `0xFF`. -/
  | unassignedOpcode
  deriving DecidableEq, Repr

/-- The decoder of rule R83: total, and a function of the word alone. -/
def decode (w : Word) : Except Illegal Instr :=
  if rsvField w ≠ 0 then .error .reservedBits
  else if opcodeField w = 0x01 then
    if handleField w = 0x00 then .ok .build else .error .buildWithHandle
  else if opcodeField w = 0x02 then .ok (.release (handleField w))
  else if opcodeField w = 0x03 then .ok (.crc (handleField w))
  else .error .unassignedOpcode

/-- A command word from its fields (rule R81): `HANDLE` in bits 15:8, `OPCODE` in bits 7:0, `RSV`
zero. -/
def packFields (h : Handle) (op : Byte) : Word := (h.setWidth 32 <<< 8) ||| op.setWidth 32

/-- The word of a command (rule R91). -/
def encode : Instr → Word
  | .build => packFields 0x00 0x01
  | .release h => packFields h 0x02
  | .crc h => packFields h 0x03

/-- The request of a written command (rule R91). -/
def requestOf : Written → Request
  | .build poly => { cmd := encode .build, arg0 := poly, arg1 := 0, data := [] }
  | .release h => { cmd := encode (.release h), arg0 := 0, arg1 := 0, data := [] }
  | .crc h seed data =>
    { cmd := encode (.crc h), arg0 := seed, arg1 := BitVec.ofNat 64 data.length, data := data }

/-- One row of the opcode map (rule R82). -/
structure OpcodeRow where
  mnemonic : String
  pattern : Word
  mask : Word
  deriving DecidableEq, Repr

/-- The opcode map of rule R82. -/
def opcodeMap : List OpcodeRow :=
  [{ mnemonic := "BUILD", pattern := 0x00000001, mask := 0xFFFFFFFF },
   { mnemonic := "RELEASE", pattern := 0x00000002, mask := 0xFFFF00FF },
   { mnemonic := "CRC", pattern := 0x00000003, mask := 0xFFFF00FF }]

/-- "A word `w` selects a command exactly when `(w and mask) == match`" (rule R82). -/
def OpcodeRow.selects (row : OpcodeRow) (w : Word) : Bool := w &&& row.mask == row.pattern

/-- The mnemonic opcode_table.json gives a command. -/
def Instr.mnemonic : Instr → String
  | .build => "BUILD"
  | .release _ => "RELEASE"
  | .crc _ => "CRC"

/-- The command `decode` reads from a word numbered as opcode_table.json numbers it, the bits
above `nbits` being zero; a number wider than `CMD` is no command word. -/
def decodeTableWord (nbits w : Nat) : Option Instr :=
  let v := w % 2 ^ nbits
  if v < 2 ^ 32 then
    match decode (BitVec.ofNat 32 v) with
    | .ok i => some i
    | .error _ => none
  else none

end Sys2Proof
end

