-- ==== Sys2Proof/Machine/Reception.lean ====
section
/-! DEFINITION. What happens to a core between commands: an illegal word (60_exceptions.md rule
R194), and what the world outside does to it (requests 20_memory.md rule R62, data beats
00_scope.md rule R14, reset 70_reset_and_hazards.md rules R230 and R231). -/

namespace Sys2Proof.Machine

/-- The decoder's answer for the request in the interface registers. -/
def State.decoded (s : State) : Except Illegal Instr := decode s.request.cmd

/-- A word that spells no command raises `IllegalCommand` (rule R194). -/
def execIllegal (s : State) : Host.Outcome State Fault Refusal :=
  .next (s.raise (.illegalCommand s.request.cmd))

/-- A host supplies one more request, after those already supplied. -/
def State.submit (r : Request) (s : State) : State := { s with requests := s.requests ++ [r] }

/-- One beat: the next data byte of the request in the interface registers arrives
(notes/assumptions/23.md). -/
def State.deliverBeat (d : Byte) (s : State) : State :=
  match s.requests with
  | [] => s
  | r :: rest => { s with requests := { r with data := r.data ++ [d] } :: rest }

/-- Slots after a reset event: none valid, their entries unspecified (10_state.md rule R34). -/
def freeSlots : Nat → Nat → List Slot
  | 0, _ => []
  | k + 1, n => { valid := false, table := freeTable n } :: freeSlots k (n + 256)

/-- The platform resets the core, in whatever state it is: every slot becomes invalid, a command
in execution is abandoned without response, and what is unspecified is drawn afresh
(notes/assumptions/20.md). -/
def State.onReset (s : State) : State :=
  { s with
    slots := freeSlots s.nslots (s.draws + 5)
    work := freeWork s.lenw s.draws
    requests := []
    response := none
    draws := s.draws + 5 + 256 * s.nslots }

end Sys2Proof.Machine
end

