-- ==== Sys2Proof/Machine/Step.lean ====
section
/-! DEFINITION. One step: the core answers one request, or stays idle (20_memory.md rule R62). -/

namespace Sys2Proof.Machine

/-- One whole command, accepted and answered (rules R59, R62); without a request the core is idle
and keeps its state (60_exceptions.md rule R207; notes/assumptions/1.md). -/
def step (s : State) : Host.Outcome State Fault Refusal :=
  match s.requests with
  | [] => .next s
  | _ :: _ =>
    match s.decoded with
    | .ok i => exec i s
    | .error _ => execIllegal s

/-- The command word `w` stands in `CMD`: in the request already there, or in a new one whose
operand registers are zero (notes/assumptions/4.md). -/
def State.withFetchWord (s : State) (nbits w : Nat) : State :=
  { s with
    requests := { s.request with cmd := BitVec.ofNat 32 (w % 2 ^ nbits) } :: s.requests.tail }

end Sys2Proof.Machine
end

