-- ==== Sys2Proof/Safety.lean ====
section
/-! DEFINITION. The terms claims are stated in: the architectural state, the invariant of a core,
and what a well-used core is. -/

namespace Sys2Proof.Machine

/-- A slot as commands can see it: its table while it is valid, nothing otherwise. -/
def Slot.visible (sl : Slot) : Option Table := if sl.valid then some sl.table else none

/-- "exactly the pair `(VALID, TBL)` ..., and of `TBL` only the slots whose valid bit is 1"
(10_state.md rule R20). -/
def State.arch (s : State) : List (Option Table) := s.slots.map Slot.visible

/-- The invariant of a valid slot (10_state.md rule R24). -/
def Slot.Built (sl : Slot) : Prop :=
  sl.valid = true → ∃ P : Word, ∀ i : Byte, lookup sl.table i = entry P i

/-- What holds of every core between two commands: parameters in the ranges of 00_scope.md rule
R7, every valid slot built (rule R24), `LEN` within its register, a status code that is produced
(30_encoding.md rule R88). -/
structure State.Inv (s : State) : Prop where
  config : s.config.wf = true
  built : ∀ sl ∈ s.slots, sl.Built
  len : s.work.len.toNat < 2 ^ s.lenw
  status : ∀ r, s.response = some r → r.status.toNat ≤ 3

/-- How a command ends (60_exceptions.md rule R190, 30_encoding.md rule R88): exactly one response,
the request is done, the parameters are as before. The working registers are unspecified from then
on (10_state.md rule R27) and the model's own counters move, so neither is mentioned. -/
def State.Answered (s t : State) (status : Status) (result : Word) : Prop :=
  t.response = some { status := status.code, result := result } ∧
  t.requests = s.requests.tail ∧ t.nslots = s.nslots ∧ t.lenw = s.lenw

/-- The host's duties towards the request that stands in the interface registers: a legal word
(R86), and for `CRC` a valid handle and every data byte delivered (60_exceptions.md rule R195). -/
def State.wellUsed (s : State) : Bool :=
  match s.requests with
  | [] => true
  | _ :: _ =>
    match s.decoded with
    | .ok .build => true
    | .ok (.release _) => true
    | .ok (.crc h) => s.validHandle h && decide (s.arg1.toNat ≤ s.data.length)
    | .error _ => false

/-- A step that goes on, with no fault of the host recorded. -/
def safe : Host.Outcome State Fault Refusal → Bool
  | .next t => t.hostFaults.isEmpty
  | .fault _ => false
  | .refused _ => false

/-- A run of `k` steps that goes on, with no fault of the host recorded. -/
def safeRun (k : Nat) (s : State) : Bool := safe (Sys2Proof.core.run k s)

end Sys2Proof.Machine
end

