-- ==== Sys2Proof/Certificates/Slice0/Obligations.lean ====
section
/-! DEFINITION. The statements, one `Prop` each, in the order of OBLIGATIONS.json. -/

open Sys2Proof Sys2Proof.Machine

/-! ### Encoding (30_encoding.md) -/

/-- Decoding and encoding are inverse to each other, in both directions and for every handle: no
word but `encode i` spells `i` ("`decode` is injective on legal words", rule R83). -/
def Obligations.DecodeInvertsEncode : Prop :=
  ∀ (w : Word) (i : Instr), decode w = .ok i ↔ w = encode i

/-- The decoder (rule R83): a word spells `BUILD`, `RELEASE h` or `CRC h` exactly when its three
fields say so and is illegal otherwise; no command has two words; there are 513 legal words. -/
def Obligations.DecoderReadsTheThreeFields : Prop :=
  (∀ w : Word, decode w = .ok .build ↔
    rsvField w = 0 ∧ opcodeField w = 0x01 ∧ handleField w = 0x00) ∧
  (∀ (w : Word) (h : Handle), decode w = .ok (.release h) ↔
    rsvField w = 0 ∧ opcodeField w = 0x02 ∧ handleField w = h) ∧
  (∀ (w : Word) (h : Handle), decode w = .ok (.crc h) ↔
    rsvField w = 0 ∧ opcodeField w = 0x03 ∧ handleField w = h) ∧
  (∀ (w w' : Word) (i : Instr), decode w = .ok i → decode w' = .ok i → w = w') ∧
  (∃ l : List Word, l.Nodup ∧ l.length = 513 ∧ ∀ w : Word, w ∈ l ↔ ∃ i, decode w = .ok i)

/-- The decoder selects a command exactly when the word masked gives that row's match value; no
word selects two rows; the example words of the map (rule R82). -/
def Obligations.DecodeFollowsOpcodeMap : Prop :=
  (∀ w : Word, (opcodeMap.filter (fun row => row.selects w)).map OpcodeRow.mnemonic =
    match decode w with
    | .ok i => [i.mnemonic]
    | .error _ => []) ∧
  decode 0x00000001 = .ok .build ∧ decode 0x00008002 = .ok (.release 0x80) ∧
  decode 0x00000103 = .ok (.crc 0x01) ∧
  decode 0x00000000 = .error .unassignedOpcode ∧ decode 0x00000004 = .error .unassignedOpcode

/-- Words written out bit by bit from the layout of rule R81, with what they stand for. -/
def Obligations.WordsFromTheLayoutDecode : Prop :=
  decode (0b00000000000000000000000000000001 : Word) = .ok .build ∧
  decode (0b00000000000000001000000000000010 : Word) = .ok (.release 0x80) ∧
  decode (0b00000000000000000000010000000011 : Word) = .ok (.crc 0x04) ∧
  decode (0b00000000000000001111111100000011 : Word) = .ok (.crc 0xFF) ∧
  decode (0b00000000000000010000000000000011 : Word) = .error .reservedBits ∧
  decode (0b00000000000000000000000100000001 : Word) = .error .buildWithHandle

/-- The request of a written command (rule R91): its word decodes to the command, `CMD` is the sum
the rule gives, the operands stand in their registers, and a `CRC` request is complete; the rule's
own example. -/
def Obligations.WrittenCommandSpellsItsRequest : Prop :=
  (∀ c : Written, decode (requestOf c).cmd = .ok c.instr) ∧
  (∀ poly, (requestOf (.build poly)).cmd = 0x00000001 ∧ (requestOf (.build poly)).arg0 = poly) ∧
  (∀ h, (requestOf (.release h)).cmd.toNat = 0x00000002 + h.toNat * 256) ∧
  (∀ h seed data, (requestOf (.crc h seed data)).cmd.toNat = 0x00000003 + h.toNat * 256 ∧
    (requestOf (.crc h seed data)).arg0 = seed ∧ (requestOf (.crc h seed data)).data = data) ∧
  (∀ lenw h seed data, lenw ≤ 64 → (Written.crc h seed data).wf lenw = true →
    (requestOf (.crc h seed data)).arg1.toNat = data.length ∧
    (requestOf (.crc h seed data)).complete lenw = true) ∧
  requestOf (.crc ieee 0 [0x31, 0x32, 0x33, 0x34, 0x35, 0x36, 0x37, 0x38, 0x39]) =
    { cmd := 0x00000103, arg0 := 0x00000000, arg1 := 9,
      data := [0x31, 0x32, 0x33, 0x34, 0x35, 0x36, 0x37, 0x38, 0x39] }

/-- Every illegal word answers `(IllegalCommand, 0)` and leaves every slot alone, whatever its
handle field holds (decoding comes first, 60_exceptions.md rule R196); the illegal words are those
rule R86 lists; a legal word whose handle names no table raises `InvalidHandle` instead. -/
def Obligations.IllegalWordsAnswerIllegalCommand : Prop :=
  (∀ w : Word, (∃ e, decode w = .error e) ↔
    (rsvField w ≠ 0 ∨ opcodeField w = 0x00 ∨ 0x04 ≤ (opcodeField w).toNat ∨
      (opcodeField w = 0x01 ∧ handleField w ≠ 0))) ∧
  (∀ (s : State) (r : Request) (rest : List Request) (e : Illegal), s.requests = r :: rest →
    decode r.cmd = .error e →
    ∃ t, step s = .next t ∧ s.Answered t .illegalCommand 0 ∧ t.slots = s.slots) ∧
  (∀ (s : State) (r : Request) (rest : List Request) (h : Handle), s.requests = r :: rest →
    (decode r.cmd = .ok (.release h) ∨ decode r.cmd = .ok (.crc h)) → s.validHandle h = false →
    ∃ t result, step s = .next t ∧ s.Answered t .invalidHandle result ∧ t.slots = s.slots)

/-! ### Handles and tables (30_encoding.md section 4, 20_memory.md, 42_constant_tables.md) -/

/-- Every handle is of exactly one class, and the naming functions are inverse to each other. -/
def Obligations.HandleClassesPartitionTheHandles : Prop :=
  ∀ n : Nat, n ≤ 128 →
    (∀ h : Handle, isNull h = true ↔ h.toNat = 0x00) ∧
    (∀ h : Handle, isConst h = true ↔ ∃ c : Fin 4, h = handleOfConst c) ∧
    (∀ h : Handle, isDyn n h = true ↔ ∃ k, k < n ∧ h = handleOfSlot k) ∧
    (∀ h : Handle, (isNull h = false ∧ isConst h = false ∧ isDyn n h = false) ↔
      (0x05 ≤ h.toNat ∧ h.toNat ≤ 0x7F) ∨ 0x80 + n ≤ h.toNat) ∧
    (∀ c : Fin 4, constOf (handleOfConst c) = c) ∧
    (∀ k, k < n → slotOf (handleOfSlot k) = k ∧ (handleOfSlot k).toNat = 0x80 + k)

/-- `TableRead` gives the entry of the constant table or of the live slot a handle names, and is
defined for no other handle (rule R52). -/
def Obligations.TableReadFollowsTheHandle : Prop :=
  ∀ (s : State) (h : Handle) (i : Byte),
    (isConst h = true → s.tableRead h i = some (lookup (rom (constOf h)) i)) ∧
    (s.live h = true → ∃ sl, s.slots[slotOf h]? = some sl ∧ sl.valid = true ∧
      s.tableRead h i = some (lookup sl.table i)) ∧
    (s.validHandle h = false → s.tableRead h i = none)

/-- The four constant handles name, in every state, the tables of the four polynomials (rule
R150). -/
def Obligations.ConstantHandlesNameTheirTables : Prop :=
  ∀ (s : State) (i : Byte),
    s.tableRead 0x01 i = some (entry 0xedb88320 i) ∧
    s.tableRead 0x02 i = some (entry 0x82f63b78 i) ∧
    s.tableRead 0x03 i = some (entry 0xeb31d82e i) ∧
    s.tableRead 0x04 i = some (entry 0x973afb51 i)

/-- `TableWrite` writes one entry of one slot and nothing else, and a read of the slot then gives
the value written (rule R53). -/
def Obligations.TableWriteWritesOneEntry : Prop :=
  ∀ (s : State) (k : Nat) (sl : Slot) (i : Byte) (v : Word), s.slots[k]? = some sl →
    ∃ sl', (s.tableWrite k i v).slots[k]? = some sl' ∧ sl'.valid = sl.valid ∧
      lookup sl'.table i = v ∧ (∀ j, j ≠ i → lookup sl'.table j = lookup sl.table j) ∧
      (∀ k', k' ≠ k → (s.tableWrite k i v).slots[k']? = s.slots[k']?) ∧
      (s.tableWrite k i v).slots.length = s.slots.length ∧
      (s.tableWrite k i v).work = s.work ∧ (s.tableWrite k i v).requests = s.requests

/-- A byte delivered is the next byte `DataRead` gives; the earlier ones and all else stay
(20_memory.md rule R54, 70_reset_and_hazards.md rule R239). -/
def Obligations.DeliveredByteIsReadAtItsPosition : Prop :=
  ∀ (s : State) (d : Byte), s.requests ≠ [] →
    (s.deliverBeat d).dataRead s.data.length = some d ∧
    (∀ k, k < s.data.length → (s.deliverBeat d).dataRead k = s.dataRead k) ∧
    (s.deliverBeat d).slots = s.slots ∧ (s.deliverBeat d).arg0 = s.arg0 ∧
    (s.deliverBeat d).arg1 = s.arg1 ∧ (s.deliverBeat d).decoded = s.decoded

/-- The check values of the four constant tables: entries 0, 1, 2, 128 and 255, and the checksum of
"123456789" with seed 0 (an inference the spec marks as its own: rule R154). -/
def Obligations.CheckValuesOfTheConstantTables : Prop :=
  let data : List Byte := [0x31, 0x32, 0x33, 0x34, 0x35, 0x36, 0x37, 0x38, 0x39]
  [0, 1, 2, 3].map (fun c : Fin 4 =>
      ([0, 1, 2, 128, 255].map (lookup (rom c)), crc32 (rom c) data 0)) =
    [([0, 0x77073096, 0xee0e612c, 0xedb88320, 0x2d02ef8d], 0xCBF43926),
     ([0, 0xf26b8303, 0xe13b70f7, 0x82f63b78, 0xad7d5351], 0xE3069283),
     ([0, 0x9695c4ca, 0xfb4839c9, 0xeb31d82e, 0xc0522c72], 0x2D3DD0AE),
     ([0, 0xc0f83fe7, 0xaf85896d, 0x973afb51, 0xa584b8c3], 0x63055C8C)]

/-! ### Table generation (40_table_builder.md, 43_arithmetic_and_laws.md section 3) -/

/-- The loop of `BUILD`, run over the working registers, stores `build_table(POLY)` in the slot it
fills and touches no other slot; it visits each byte value exactly once (rule R112). -/
def Obligations.BuildLoopStoresTheTable : Prop :=
  (allBytes.Nodup ∧ allBytes.length = 256 ∧ ∀ b : Byte, b ∈ allBytes) ∧
  (∀ (P : Word) (b : Byte), lookup (buildTable P) b = rsteps P 8 (zext32 b)) ∧
  (∀ (s : State) (k : Nat), (buildLoop k s).slots =
    s.slots.modify k (fun sl => { sl with table := buildTable s.work.poly }))

/-- `rstep` is linear over exclusive or in its remainder argument (an inference the spec marks as
its own: rule R165). -/
def Obligations.RemainderStepIsLinear : Prop :=
  ∀ P a b : Word, rstep P (a ^^^ b) = rstep P a ^^^ rstep P b ∧ rstep P 0 = 0

/-- Every table is linear in its index, and is determined by its eight entries at the powers of two
(an inference the spec marks as its own: rule R166). -/
def Obligations.TableIsLinearInItsIndex : Prop :=
  (∀ (P : Word) (x y : Byte), entry P (x ^^^ y) = entry P x ^^^ entry P y ∧ entry P 0 = 0) ∧
  (∀ P Q : Word, (∀ j < 8, entry P (1#8 <<< j) = entry Q (1#8 <<< j)) → buildTable P = buildTable Q)

/-- The eight basis entries (an inference the spec marks as its own: rule R167). -/
def Obligations.BasisEntriesAreStepsOfThePolynomial : Prop :=
  ∀ (P : Word) (j : Nat), j < 8 → entry P (1#8 <<< j) = rsteps P (7 - j) P

/-- The polynomial is entry 128 of its table, and equal tables have equal polynomials (an inference
the spec marks as its own: rule R168). -/
def Obligations.PolynomialReadsBackFromItsTable : Prop :=
  ∀ P Q : Word, lookup (buildTable P) 128 = P ∧ (buildTable P = buildTable Q ↔ P = Q)

/-- The contents of the two degenerate tables (an inference the spec marks as its own: rule R120,
with the closed form of 95_test_vectors.md V12). -/
def Obligations.DegenerateTablesHaveTheirClosedForms : Prop :=
  ∀ b : Byte, entry 0x00000000 b = 0 ∧
    entry 0xFFFFFFFF b =
      (((b &&& 0x7F).setWidth 32 : Word) <<< 25) ^^^ (if b.getLsbD 7 then 0xFFFFFFFF else 0)

/-! ### Accumulation (41_checksum_accumulator.md, 43_arithmetic_and_laws.md section 4) -/

/-- The data byte enters only through the low byte of the accumulator (an inference the spec marks
as its own: rule R170). -/
def Obligations.DataByteEntersThroughTheLowByte : Prop :=
  ∀ (T : Table) (c : Word) (d : Byte), accStep T c d = accStep T (c ^^^ zext32 d) 0

/-- One table step equals eight remainder steps (an inference the spec marks as its own: rule
R171). -/
def Obligations.TableStepIsEightRemainderSteps : Prop :=
  ∀ (P c : Word) (d : Byte), accStep (buildTable P) c d = rsteps P 8 (c ^^^ zext32 d)

/-- The table-driven checksum is the bit-serial one, for every polynomial, data and seed (an
inference the spec marks as its own: rule R171). -/
def Obligations.TableChecksumIsBitSerialChecksum : Prop :=
  ∀ (P : Word) (data : List Byte) (S : Word),
    crc32 (buildTable P) data S = crc32Bitwise P data S

/-- Streaming (rule R137). -/
def Obligations.ChecksumStreams : Prop :=
  ∀ (T : Table) (S : Word) (A B : List Byte), crc32 T (A ++ B) S = crc32 T B (crc32 T A S)

/-- Chunking over any number of parts, empty ones among them (an inference the spec marks as its
own: rule R172). -/
def Obligations.ChecksumChunksOverAnyParts : Prop :=
  ∀ (T : Table) (S : Word) (parts : List (List Byte)),
    parts.foldl (fun S' A => crc32 T A S') S = crc32 T parts.flatten S

/-- Two inputs that differ in exactly one byte have different checksums under the table of any
polynomial with bit 31 set, whatever the seed (the exact part of rule R175, an inference the spec
marks as its own). -/
def Obligations.OneChangedByteChangesTheChecksum : Prop :=
  ∀ (P S : Word) (pre post : List Byte) (a b : Byte), P.getLsbD 31 = true → a ≠ b →
    crc32 (buildTable P) (pre ++ a :: post) S ≠ crc32 (buildTable P) (pre ++ b :: post) S

/-- The checksum under the all-zero table (an inference the spec marks as its own: rule R176). -/
def Obligations.AllZeroTableForgetsTheData : Prop :=
  ∀ (data : List Byte) (S : Word),
    crc32 (buildTable 0) data S =
      if data.length ≤ 3 then complement (complement S >>> (8 * data.length)) else 0xFFFFFFFF

/-! ### BUILD (40_table_builder.md section 2) -/

/-- `alloc` (rule R115): the smallest free slot; none exactly when every slot is valid. -/
def Obligations.AllocationTakesTheLowestFreeSlot : Prop :=
  ∀ s : State,
    (∀ k, s.alloc = some k ↔
      k < s.nslots ∧ s.validBit k = false ∧ ∀ j < k, s.validBit j = true) ∧
    (s.alloc = none ↔ ∀ k < s.nslots, s.validBit k = true)

/-- `BUILD` completes whenever some slot is free: the lowest free slot becomes valid and holds
`entry(ARG0, b)` at every `b`, the response carries its handle, which named nothing before and
names that table now, and every other slot, valid bit and entry is unchanged. -/
def Obligations.BuildCompletesInTheLowestFreeSlot : Prop :=
  ∀ s : State, s.nslots ≤ 128 → (∃ sl ∈ s.slots, sl.valid = false) →
    ∃ k t sl, s.alloc = some k ∧ k < s.nslots ∧ exec .build s = .next t ∧
      s.Answered t .ok (BitVec.ofNat 32 (0x80 + k)) ∧
      t.slots[k]? = some sl ∧ sl.valid = true ∧ (∀ b : Byte, lookup sl.table b = entry s.arg0 b) ∧
      (∀ j, j ≠ k → t.slots[j]? = s.slots[j]?) ∧
      s.validHandle (handleOfSlot k) = false ∧ t.validHandle (handleOfSlot k) = true ∧
      t.tableOf (handleOfSlot k) = some sl.table

/-- `BUILD` with every slot valid (also with no slot at all) answers `(AllocationFailure, 0)` and
writes nothing (60_exceptions.md rule R192). -/
def Obligations.BuildFailsWhenEverySlotIsValid : Prop :=
  ∀ s : State, (∀ sl ∈ s.slots, sl.valid = true) →
    ∃ t, exec .build s = .next t ∧ s.Answered t .allocationFailure 0 ∧ t.slots = s.slots

/-- The table a `BUILD` writes depends on `ARG0` alone: two successful `BUILD`s of one polynomial,
from any two states and into any two slots, write identical tables (rule R116). -/
def Obligations.BuildIsDeterministic : Prop :=
  ∀ (s s' : State) (k k' : Nat), s.arg0 = s'.arg0 → s.alloc = some k → s'.alloc = some k' →
    ∃ t t' sl sl', exec .build s = .next t ∧ exec .build s' = .next t' ∧
      t.slots[k]? = some sl ∧ t'.slots[k']? = some sl' ∧ sl = sl'

/-- After a failed `BUILD` the result is the `NULL` handle, which neither `CRC` nor `RELEASE`
accepts in any state (70_reset_and_hazards.md rule R235). -/
def Obligations.FailedBuildLeavesTheNullHandle : Prop :=
  (∀ (s t : State) (p : Response), exec .build s = .next t → t.response = some p →
    p.status ≠ Status.ok.code → p.result = zext32 nullHandle) ∧
  (∀ u : State, ∃ t t' r, exec (.release nullHandle) u = .next t ∧
    u.Answered t .invalidHandle 0 ∧ exec (.crc nullHandle) u = .next t' ∧
    u.Answered t' .invalidHandle r ∧ t.slots = u.slots ∧ t'.slots = u.slots)

/-! ### RELEASE (40_table_builder.md section 3) -/

/-- `RELEASE` of a releasable handle completes: its valid bit becomes 0, the handle names nothing
any more, and every other slot is unchanged, entries and all. -/
def Obligations.ReleaseCompletesAndFreesTheSlot : Prop :=
  ∀ (s : State) (h : Handle), s.releasable h = true →
    ∃ t, exec (.release h) s = .next t ∧ s.Answered t .ok 0 ∧
      t.validBit (slotOf h) = false ∧ t.validHandle h = false ∧
      (∀ j, j ≠ slotOf h → t.slots[j]? = s.slots[j]?)

/-- `RELEASE` of any other handle answers `(InvalidHandle, 0)` and leaves every slot alone (the
failure of rule R117). -/
def Obligations.ReleaseOfAnInvalidHandleChangesNothing : Prop :=
  ∀ (s : State) (h : Handle), s.releasable h = false →
    ∃ t, exec (.release h) s = .next t ∧ s.Answered t .invalidHandle 0 ∧ t.slots = s.slots

/-- `RELEASE` by class of handle (rule R118): only a dynamic handle whose slot is valid can be
released; `NULL`, the constant handles, the unassigned values and free slots cannot. -/
def Obligations.OnlyLiveSlotsAreReleasable : Prop :=
  ∀ s : State, s.nslots ≤ 128 →
    s.releasable 0x00 = false ∧
    (∀ c : Fin 4, s.releasable (handleOfConst c) = false ∧ s.validHandle (handleOfConst c) = true) ∧
    (∀ h : Handle, 0x05 ≤ h.toNat → h.toNat ≤ 0x7F → s.releasable h = false) ∧
    (∀ k, s.nslots ≤ k → k ≤ 127 → s.releasable (handleOfSlot k) = false) ∧
    (∀ k, k < s.nslots → s.releasable (handleOfSlot k) = s.validBit k)

/-- A second `RELEASE` of a released handle, and a `CRC` with it, answer `InvalidHandle` for as long
as the slot has not been rebuilt (70_reset_and_hazards.md rule R234). -/
def Obligations.UseAfterReleaseIsDetected : Prop :=
  ∀ (s t u : State) (h : Handle), s.releasable h = true → exec (.release h) s = .next t →
    u.slots.length = t.slots.length → u.validBit (slotOf h) = t.validBit (slotOf h) →
    ∃ v v' r, exec (.release h) u = .next v ∧ u.Answered v .invalidHandle 0 ∧ v.slots = u.slots ∧
      exec (.crc h) u = .next v' ∧ u.Answered v' .invalidHandle r ∧ v'.slots = u.slots

/-- Handle reuse: when every lower slot is valid, the handle released is the very next one a `BUILD`
hands out, and it then names the new table (70_reset_and_hazards.md rule R236). -/
def Obligations.ReleasedHandleIsHandedOutAgain : Prop :=
  ∀ (s : State) (h : Handle), s.nslots ≤ 128 → s.releasable h = true →
    (∀ j < slotOf h, s.validBit j = true) →
    ∃ t, exec (.release h) s = .next t ∧
      ∃ u T, exec .build t = .next u ∧ t.Answered u .ok (zext32 h) ∧
        u.tableOf h = some T ∧ ∀ i, lookup T i = entry t.arg0 i

/-! ### CRC (41_checksum_accumulator.md section 2) -/

/-- `CRC` completes for every valid handle and delivered data: the response is the checksum of the
`ARG1` bytes under the table the handle names, from the seed `ARG0`, and no state element changes. -/
def Obligations.CrcCompletesWithTheChecksum : Prop :=
  ∀ (s : State) (h : Handle), s.validHandle h = true → s.arg1.toNat ≤ s.data.length →
    ∃ T t, s.tableOf h = some T ∧ exec (.crc h) s = .next t ∧
      s.Answered t .ok (crc32 T (s.data.take s.arg1.toNat) s.arg0) ∧ t.slots = s.slots

/-- `CRC` with a handle that names no table answers `InvalidHandle` with a free `RESULT`, before any
data byte is looked at, and changes no slot (rules R134, R139 for the core; that the model goes on
here and records the fault is its choice, notes/assumptions/11.md). -/
def Obligations.CrcOfAnInvalidHandleChangesNothing : Prop :=
  ∀ (s : State) (h : Handle), s.validHandle h = false →
    ∃ t result, exec (.crc h) s = .next t ∧ s.Answered t .invalidHandle result ∧
      t.slots = s.slots ∧ t.hostFaults = s.hostFaults ++ [.crcInvalidHandle h]

/-- Zero-length identity: for every valid handle and every seed the response is the seed; with an
invalid handle it is `InvalidHandle` all the same (rule R136). -/
def Obligations.ZeroLengthCrcReturnsTheSeed : Prop :=
  ∀ (s : State) (h : Handle), s.arg1 = 0 →
    (s.validHandle h = true → ∃ t, exec (.crc h) s = .next t ∧ s.Answered t .ok s.arg0) ∧
    (s.validHandle h = false →
      ∃ t r, exec (.crc h) s = .next t ∧ s.Answered t .invalidHandle r)

/-- The result depends on the table's contents only, never on the handle or on anything else in the
state (an inference the spec marks as its own: rule R173). -/
def Obligations.ChecksumDependsOnTheTableOnly : Prop :=
  ∀ (s s' : State) (h h' : Handle) (T T' : Table), s.tableOf h = some T → s'.tableOf h' = some T' →
    (∀ i, lookup T i = lookup T' i) → s.arg0 = s'.arg0 → s.arg1 = s'.arg1 → s.data = s'.data →
    s.arg1.toNat ≤ s.data.length →
    ∃ t t', exec (.crc h) s = .next t ∧ exec (.crc h') s' = .next t' ∧ t.response = t'.response

/-- A one-byte `CRC` with seed `0xFFFFFFFF` reads a table entry, complemented (an inference the spec
marks as its own: rule R174). -/
def Obligations.OneByteCrcReadsATableEntry : Prop :=
  ∀ (s : State) (h : Handle) (b : Byte), s.validHandle h = true → s.arg0 = 0xFFFFFFFF →
    s.arg1 = 1 → s.data = [b] →
    ∃ t v, s.tableRead h b = some v ∧ exec (.crc h) s = .next t ∧ s.Answered t .ok (complement v)

/-- A table built from a named polynomial answers every `CRC` exactly as the constant table does
(rule R151). -/
def Obligations.BuiltAndConstantTablesAgree : Prop :=
  ∀ (s : State) (c : Fin 4) (k : Nat), s.nslots ≤ 128 → s.alloc = some k → s.arg0 = polyC[c] →
    ∃ t, exec .build s = .next t ∧ t.tableOf (handleOfSlot k) = t.tableOf (handleOfConst c) ∧
      (t.arg1.toNat ≤ t.data.length →
        ∃ u u', exec (.crc (handleOfSlot k)) t = .next u ∧
          exec (.crc (handleOfConst c)) t = .next u' ∧ u.response = u'.response)

/-- Data underrun: with a valid handle and fewer bytes delivered than `ARG1` announces, the command
gives no response and never ends; nothing but the missing bytes stops it from ending
(70_reset_and_hazards.md rule R238). -/
def Obligations.DataUnderrunIsStuckUntilTheBytesArrive : Prop :=
  ∀ (s : State) (h : Handle), s.validHandle h = true →
    (s.data.length < s.arg1.toNat → exec (.crc h) s = .fault .dataUnderrun) ∧
    (s.requests ≠ [] → ∀ more : List Byte, s.arg1.toNat = s.data.length + more.length →
      ∃ T t, s.tableOf h = some T ∧
        exec (.crc h) (more.foldl (fun u d => u.deliverBeat d) s) = .next t ∧
        s.Answered t .ok (crc32 T (s.data ++ more) s.arg0))

/-- The source's known-answer test, as a command in any state (95_test_vectors.md V1). -/
def Obligations.KnownAnswerTest : Prop :=
  ∀ (s : State) (rest : List Request), 4 ≤ s.lenw →
    s.requests = { cmd := 0x00000103, arg0 := 0, arg1 := 9,
                   data := [0x31, 0x32, 0x33, 0x34, 0x35, 0x36, 0x37, 0x38, 0x39] } :: rest →
    ∃ t, step s = .next t ∧ s.Answered t .ok 0xCBF43926 ∧ t.slots = s.slots

/-! ### The whole machine -/

/-- A step with a request at the interface runs the decoded command on this very state: the
operands stay in their registers and nothing is added around `exec`. -/
def Obligations.StepRunsTheDecodedCommand : Prop :=
  ∀ (s : State) (r : Request) (rest : List Request) (i : Instr), s.requests = r :: rest →
    decode r.cmd = .ok i → step s = exec i s

/-- Without a request the core is idle and keeps its state (60_exceptions.md rule R207). -/
def Obligations.IdleCoreKeepsItsState : Prop :=
  ∀ s : State, s.requests = [] → step s = .next s

/-- Requests are answered one at a time in the host's order, each with a response of its own, and no
step changes a parameter (20_memory.md rule R62, 00_scope.md rule R7). -/
def Obligations.RequestsAreAnsweredInOrder : Prop :=
  ∀ (s t : State), step s = .next t → s.requests ≠ [] →
    t.requests = s.requests.tail ∧ t.response.isSome = true ∧ t.config = s.config

/-- A request supplied while others stand before it changes nothing of the command in execution and
waits its turn (20_memory.md rule R62). -/
def Obligations.SubmittedRequestsWaitTheirTurn : Prop :=
  ∀ (s t : State) (r : Request), s.requests ≠ [] → step s = .next t →
    step (s.submit r) = .next (t.submit r)

/-- Every command with a complete request ends with a response, whatever its word, handle and
operands (43_arithmetic_and_laws.md rule R177). -/
def Obligations.EveryCompleteRequestIsAnswered : Prop :=
  ∀ (s : State) (r : Request) (rest : List Request), s.requests = r :: rest →
    r.complete s.lenw = true ∨ (∀ h, decode r.cmd ≠ .ok (.crc h)) →
    ∃ t, step s = .next t ∧ t.requests = rest ∧ t.response.isSome = true

/-- Immutable once constructed: a step leaves a valid slot as it is, entry by entry, or makes it
invalid (10_state.md rule R21). -/
def Obligations.ValidTablesAreImmutable : Prop :=
  ∀ (s t : State) (k : Nat) (sl : Slot), step s = .next t → s.slots[k]? = some sl →
    sl.valid = true →
    t.slots[k]? = some sl ∨ ∃ sl', t.slots[k]? = some sl' ∧ sl'.valid = false

/-- A valid bit is set only by a successful `BUILD` for the slot it filled, and cleared only by a
successful `RELEASE` of that slot's handle; no other event changes it except reset, which clears it
(10_state.md rule R22). -/
def Obligations.OnlyBuildSetsAndOnlyReleaseClearsAValidBit : Prop :=
  (∀ (s t : State) (k : Nat), step s = .next t →
    (s.validBit k = false → t.validBit k = true →
      s.decoded = .ok .build ∧ s.alloc = some k ∧
        t.response = some { status := Status.ok.code, result := zext32 (handleOfSlot k) }) ∧
    (s.validBit k = true → t.validBit k = false →
      ∃ h, s.decoded = .ok (.release h) ∧ isDyn s.nslots h = true ∧ slotOf h = k ∧
        t.response = some { status := Status.ok.code, result := 0 })) ∧
  (∀ (s : State) (r : Request) (d : Byte) (k : Nat),
    (s.submit r).validBit k = s.validBit k ∧ (s.deliverBeat d).validBit k = s.validBit k ∧
      s.onReset.validBit k = false)

/-- Exceptions are precise: a command that ends with a status other than `OK` leaves every slot as
it was (60_exceptions.md rule R197). -/
def Obligations.ExceptionsLeaveEverySlotAlone : Prop :=
  ∀ (s t : State) (p : Response), s.requests ≠ [] → step s = .next t → t.response = some p →
    p.status ≠ Status.ok.code → t.slots = s.slots

/-- `RESULT` by command and status (rule R89): nothing else is ever answered. -/
def Obligations.ResultFollowsCommandAndStatus : Prop :=
  ∀ (s t : State), s.requests ≠ [] → step s = .next t →
    ∃ p, t.response = some p ∧
      match s.decoded with
      | .ok .build =>
        (∃ k, s.alloc = some k ∧
          p = { status := Status.ok.code, result := zext32 (handleOfSlot k) }) ∨
        p = { status := Status.allocationFailure.code, result := 0 }
      | .ok (.release h) =>
        (s.releasable h = true ∧ p = { status := Status.ok.code, result := 0 }) ∨
        (s.releasable h = false ∧ p = { status := Status.invalidHandle.code, result := 0 })
      | .ok (.crc h) =>
        (∃ T, s.tableOf h = some T ∧
          p = { status := Status.ok.code
                result := crc32 T (s.data.take s.arg1.toNat) s.arg0 }) ∨
        (s.validHandle h = false ∧ p.status = Status.invalidHandle.code)
      | .error _ => p = { status := Status.illegalCommand.code, result := 0 }

/-- Every step keeps the invariant: parameters in range, every valid slot holding the table of some
polynomial (10_state.md rule R24), `LEN` within its register, a status code that is produced. -/
def Obligations.StepKeepsTheInvariant : Prop :=
  ∀ s t : State, s.Inv → step s = .next t → t.Inv

/-- The invariant holds at reset, for every choice of parameters in range, and after a reset event
from every state that has it. -/
def Obligations.ResetHasTheInvariant : Prop :=
  State.reset.Inv ∧ (∀ c : Config, c.wf = true → (State.resetOf c).Inv) ∧
    (∀ s : State, s.Inv → s.onReset.Inv)

/-- The state after reset (10_state.md rule R34, 70_reset_and_hazards.md rule R230): no slot is
valid, no request and no response is pending, the constant tables are readable at once and no other
handle is valid. -/
def Obligations.ResetStateIsAsTheSpecSays : Prop :=
  State.reset = State.resetOf Config.default ∧
  ∀ c : Config, (State.resetOf c).config = c ∧ (State.resetOf c).requests = [] ∧
    (State.resetOf c).response = none ∧
    (∀ k, (State.resetOf c).validBit k = false) ∧
    (∀ h, (State.resetOf c).validHandle h = isConst h) ∧
    (∀ i : Fin 4, (State.resetOf c).tableOf (handleOfConst i) = some (rom i))

/-- A reset event, also one that strikes while requests are pending: nothing is answered, every
dynamic handle becomes invalid, the constant handles stay valid, and what commands can see is what
they see after power-on (70_reset_and_hazards.md rule R231). -/
def Obligations.ResetEventDestroysEveryBuiltTable : Prop :=
  ∀ s : State, s.onReset.requests = [] ∧ s.onReset.response = none ∧
    s.onReset.config = s.config ∧ (∀ h, s.onReset.validHandle h = isConst h) ∧
    s.onReset.arch = (State.resetOf s.config).arch

/-- What commands cannot see has no effect: two cores that agree on `(VALID, TBL of the valid
slots)`, on `LENW` and on the requests answer alike and agree again afterwards, whatever their
working registers, invalid slots, earlier responses and free values; only the unspecified `RESULT`
of a `CRC` with an invalid handle may differ (10_state.md rules R20, R29, R33). -/
def Obligations.HiddenStateHasNoEffect : Prop :=
  ∀ s s' : State, s.arch = s'.arch → s.lenw = s'.lenw → s.requests = s'.requests →
    (∃ t t', step s = .next t ∧ step s' = .next t' ∧ t.arch = t'.arch ∧ t.lenw = t'.lenw ∧
      t.requests = t'.requests ∧
      (s.requests ≠ [] → t.response.map Response.status = t'.response.map Response.status ∧
        (t.response = t'.response ∨
          ∃ h, s.decoded = .ok (.crc h) ∧ s.validHandle h = false))) ∨
    (step s = .fault .dataUnderrun ∧ step s' = .fault .dataUnderrun)

/-- The record of the host's faults grows exactly when the host broke a duty, and a step of a
well-used core is safe (60_exceptions.md rule R199; that the machine goes on beside the record is
the model's choice, notes/assumptions/11.md and 12.md). -/
def Obligations.OnlyMisuseIsUnsafe : Prop :=
  ∀ s : State, s.hostFaults = [] → safe (step s) = s.wellUsed
end

