-- ==== Sys2Proof/Laws/State.lean ====
section
/-! SUPPORT. One lemma for each field and each update of the state. -/

namespace Sys2Proof.Machine

section
variable (s : State) (v : Word) (n : LenWord) (h : Handle) (k : Nat) (b : Bool)

@[simp] theorem setPoly_slots : (s.setPoly v).slots = s.slots := rfl
@[simp] theorem setPoly_lenw : (s.setPoly v).lenw = s.lenw := rfl
@[simp] theorem setPoly_requests : (s.setPoly v).requests = s.requests := rfl
@[simp] theorem setPoly_draws : (s.setPoly v).draws = s.draws := rfl
@[simp] theorem setPoly_hostFaults : (s.setPoly v).hostFaults = s.hostFaults := rfl
@[simp] theorem setPoly_poly : (s.setPoly v).work.poly = v := rfl

@[simp] theorem setRem_slots : (s.setRem v).slots = s.slots := rfl
@[simp] theorem setRem_lenw : (s.setRem v).lenw = s.lenw := rfl
@[simp] theorem setRem_requests : (s.setRem v).requests = s.requests := rfl
@[simp] theorem setRem_draws : (s.setRem v).draws = s.draws := rfl
@[simp] theorem setRem_hostFaults : (s.setRem v).hostFaults = s.hostFaults := rfl
@[simp] theorem setRem_poly : (s.setRem v).work.poly = s.work.poly := rfl
@[simp] theorem setRem_rem : (s.setRem v).work.rem = v := rfl

@[simp] theorem setAcc_slots : (s.setAcc v).slots = s.slots := rfl
@[simp] theorem setAcc_lenw : (s.setAcc v).lenw = s.lenw := rfl
@[simp] theorem setAcc_requests : (s.setAcc v).requests = s.requests := rfl
@[simp] theorem setAcc_draws : (s.setAcc v).draws = s.draws := rfl
@[simp] theorem setAcc_hostFaults : (s.setAcc v).hostFaults = s.hostFaults := rfl
@[simp] theorem setAcc_acc : (s.setAcc v).work.acc = v := rfl
@[simp] theorem setAcc_len : (s.setAcc v).work.len = s.work.len := rfl
@[simp] theorem setAcc_setAcc (w : Word) : (s.setAcc v).setAcc w = s.setAcc w := rfl

@[simp] theorem setLen_slots : (s.setLen n).slots = s.slots := rfl
@[simp] theorem setLen_lenw : (s.setLen n).lenw = s.lenw := rfl
@[simp] theorem setLen_requests : (s.setLen n).requests = s.requests := rfl
@[simp] theorem setLen_draws : (s.setLen n).draws = s.draws := rfl
@[simp] theorem setLen_hostFaults : (s.setLen n).hostFaults = s.hostFaults := rfl
@[simp] theorem setLen_len : (s.setLen n).work.len = n := rfl

@[simp] theorem setH_slots : (s.setH h).slots = s.slots := rfl
@[simp] theorem setH_lenw : (s.setH h).lenw = s.lenw := rfl
@[simp] theorem setH_requests : (s.setH h).requests = s.requests := rfl
@[simp] theorem setH_draws : (s.setH h).draws = s.draws := rfl
@[simp] theorem setH_hostFaults : (s.setH h).hostFaults = s.hostFaults := rfl
@[simp] theorem setH_h : (s.setH h).work.h = h := rfl

@[simp] theorem setValid_lenw : (s.setValid k b).lenw = s.lenw := rfl
@[simp] theorem setValid_requests : (s.setValid k b).requests = s.requests := rfl
@[simp] theorem setValid_draws : (s.setValid k b).draws = s.draws := rfl
@[simp] theorem setValid_hostFaults : (s.setValid k b).hostFaults = s.hostFaults := rfl
@[simp] theorem setValid_work : (s.setValid k b).work = s.work := rfl
@[simp] theorem setValid_slots :
    (s.setValid k b).slots = s.slots.modify k (fun sl => { sl with valid := b }) := rfl

@[simp] theorem tableWrite_lenw (i : Byte) : (s.tableWrite k i v).lenw = s.lenw := rfl
@[simp] theorem tableWrite_requests (i : Byte) : (s.tableWrite k i v).requests = s.requests := rfl
@[simp] theorem tableWrite_draws (i : Byte) : (s.tableWrite k i v).draws = s.draws := rfl
@[simp] theorem tableWrite_hostFaults (i : Byte) :
    (s.tableWrite k i v).hostFaults = s.hostFaults := rfl
@[simp] theorem tableWrite_work (i : Byte) : (s.tableWrite k i v).work = s.work := rfl

@[simp] theorem forgetTable_lenw : (s.forgetTable k).lenw = s.lenw := rfl
@[simp] theorem forgetTable_requests : (s.forgetTable k).requests = s.requests := rfl
@[simp] theorem forgetTable_hostFaults : (s.forgetTable k).hostFaults = s.hostFaults := rfl
@[simp] theorem forgetTable_work : (s.forgetTable k).work = s.work := rfl
@[simp] theorem forgetTable_draws : (s.forgetTable k).draws = s.draws + 256 := rfl
@[simp] theorem forgetTable_slots : (s.forgetTable k).slots =
    s.slots.modify k (fun sl => { sl with table := freeTable s.draws }) := rfl

/-! Every operation on the table store keeps its shape: as many slots as before, each entry listed
once because a table is a vector of 256. -/

@[simp] theorem tableWrite_nslots (i : Byte) : (s.tableWrite k i v).nslots = s.nslots := by
  simp [State.nslots, State.tableWrite]
@[simp] theorem setValid_nslots : (s.setValid k b).nslots = s.nslots := by
  simp [State.nslots, State.setValid]
@[simp] theorem forgetTable_nslots : (s.forgetTable k).nslots = s.nslots := by
  simp [State.nslots, State.forgetTable]

end

section
variable (s : State) (st : Status) (r : Word) (c : Cause)

@[simp] theorem finish_slots : (s.finish st r).slots = s.slots := rfl
@[simp] theorem finish_lenw : (s.finish st r).lenw = s.lenw := rfl
@[simp] theorem finish_requests : (s.finish st r).requests = s.requests.tail := rfl
@[simp] theorem finish_work : (s.finish st r).work = freeWork s.lenw s.draws := rfl
@[simp] theorem finish_draws : (s.finish st r).draws = s.draws + 5 := rfl
@[simp] theorem finish_hostFaults : (s.finish st r).hostFaults = s.hostFaults := rfl
@[simp] theorem finish_response :
    (s.finish st r).response = some { status := st.code, result := r } := rfl

@[simp] theorem raise_slots : (s.raise c).slots = s.slots := rfl
@[simp] theorem raise_lenw : (s.raise c).lenw = s.lenw := rfl
@[simp] theorem raise_requests : (s.raise c).requests = s.requests.tail := rfl
@[simp] theorem raise_work : (s.raise c).work = freeWork s.lenw (s.draws + 1) := rfl
@[simp] theorem raise_draws : (s.raise c).draws = s.draws + 6 := rfl
@[simp] theorem raise_hostFaults : (s.raise c).hostFaults = s.hostFaults ++ c.hostFaults := rfl
@[simp] theorem raise_response : (s.raise c).response =
    some { status := c.status.code, result := c.result s.draws } := rfl

@[simp] theorem respond_eq : s.respond r = s.finish .ok r := rfl

end

/-- Everything the handle predicates and `alloc` read of a state is its slots. -/
theorem validBit_congr {s t : State} (h : s.slots = t.slots) (k : Nat) :
    s.validBit k = t.validBit k := by simp only [State.validBit, h]

theorem live_congr {s t : State} (h : s.slots = t.slots) (a : Handle) : s.live a = t.live a := by
  simp only [State.live, State.nslots, validBit_congr h, h]

theorem validHandle_congr {s t : State} (h : s.slots = t.slots) (a : Handle) :
    s.validHandle a = t.validHandle a := by simp only [State.validHandle, live_congr h]

theorem tableOf_congr {s t : State} (h : s.slots = t.slots) (a : Handle) :
    s.tableOf a = t.tableOf a := by simp only [State.tableOf, live_congr h, h]

theorem alloc_congr {s t : State} (h : s.slots = t.slots) : s.alloc = t.alloc := by
  simp only [State.alloc, h]

/-- Everything the operand accessors read of a state is its requests and `LENW`. -/
theorem request_congr {s t : State} (h : s.requests = t.requests) : s.request = t.request := by
  simp only [State.request, h]

theorem arg0_congr {s t : State} (h : s.requests = t.requests) : s.arg0 = t.arg0 := by
  simp only [State.arg0, request_congr h]

theorem data_congr {s t : State} (h : s.requests = t.requests) : s.data = t.data := by
  simp only [State.data, request_congr h]

theorem decoded_congr {s t : State} (h : s.requests = t.requests) : s.decoded = t.decoded := by
  simp only [State.decoded, request_congr h]

theorem arg1_congr {s t : State} (h : s.requests = t.requests) (hl : s.lenw = t.lenw) :
    s.arg1 = t.arg1 := by simp only [State.arg1, request_congr h, hl]

end Sys2Proof.Machine
end

