-- ==== Sys2Proof/Laws/Tables.lean ====
section
/-! SUPPORT. Tables as functions of the index, and the loop of `BUILD`. -/

namespace Sys2Proof.Machine

@[simp] theorem length_allBytes : allBytes.length = 256 := by simp [allBytes]

theorem mem_allBytes (b : Byte) : b ∈ allBytes := by
  simp only [allBytes, List.mem_map, List.mem_range]
  exact ⟨b.toNat, b.isLt, by simp⟩

/-- Tables are equal when every `u8` index reads the same entry. -/
theorem table_ext {T U : Table} (h : ∀ i : Byte, lookup T i = lookup U i) : T = U := by
  apply Vector.ext
  intro i hi
  have := h (BitVec.ofNat 8 i)
  simpa [lookup, Nat.mod_eq_of_lt hi] using this

theorem lookup_set (T : Table) (i j : Byte) (v : Word) :
    lookup (T.set i.toNat v i.isLt) j = if j = i then v else lookup T j := by
  simp only [lookup, Vector.getElem_set, BitVec.toNat_inj, eq_comm (a := i)]

theorem lookup_buildTable (P : Word) (b : Byte) : lookup (buildTable P) b = entry P b := by
  simp [lookup, buildTable, allBytes]

/-- The entries of polynomial `P` written at the byte values `bs`, in their order. -/
def fillTable (P : Word) (bs : List Byte) (T : Table) : Table :=
  bs.foldl (fun T b => T.set b.toNat (entry P b) b.isLt) T

theorem lookup_fillTable (P : Word) (bs : List Byte) (T : Table) (j : Byte) :
    lookup (fillTable P bs T) j = if j ∈ bs then entry P j else lookup T j := by
  induction bs generalizing T with
  | nil => simp [fillTable]
  | cons b bs ih =>
    rw [fillTable, List.foldl_cons, ← fillTable, ih, lookup_set]
    by_cases h2 : j = b
    · subst h2; simp
    · simp [h2]

/-- Filling every byte value gives the built table, whatever stood there before. -/
theorem fillTable_allBytes (P : Word) (T : Table) : fillTable P allBytes T = buildTable P :=
  table_ext fun j => by rw [lookup_fillTable, if_pos (mem_allBytes j), lookup_buildTable]

/-- What `n` remainder steps over the working registers do. -/
theorem remLoop_eq (n : Nat) (s : State) :
    remLoop n s = s.setRem (rsteps s.work.poly n s.work.rem) := by
  induction n generalizing s with
  | zero => rfl
  | succ n ih => rw [remLoop, ih]; rfl

/-- One entry of `BUILD`: the entry is written and `REM` holds it. -/
theorem buildEntry_eq (k : Nat) (s : State) (b : Byte) :
    buildEntry k s b = (s.setRem (entry s.work.poly b)).tableWrite k b (entry s.work.poly b) := by
  simp only [buildEntry, remLoop_eq]; rfl

/-- What writing the entries of any list of byte values does. -/
theorem foldl_buildEntry (k : Nat) (bs : List Byte) (s : State) :
    (bs.foldl (buildEntry k) s).slots =
      s.slots.modify k (fun sl => { sl with table := fillTable s.work.poly bs sl.table }) ∧
    (bs.foldl (buildEntry k) s).work.poly = s.work.poly ∧
    (bs.foldl (buildEntry k) s).lenw = s.lenw ∧
    (bs.foldl (buildEntry k) s).requests = s.requests ∧
    (bs.foldl (buildEntry k) s).draws = s.draws ∧
    (bs.foldl (buildEntry k) s).hostFaults = s.hostFaults := by
  induction bs generalizing s with
  | nil => exact ⟨(List.modify_id ..).symm, rfl, rfl, rfl, rfl, rfl⟩
  | cons b bs ih =>
    have ih := ih (buildEntry k s b)
    rw [buildEntry_eq] at ih
    simp only [tableWrite_work, tableWrite_lenw, tableWrite_requests, tableWrite_draws,
      tableWrite_hostFaults, setRem_poly, setRem_lenw, setRem_requests, setRem_draws,
      setRem_hostFaults] at ih
    rw [List.foldl_cons, buildEntry_eq]
    refine ⟨?_, ih.2⟩
    rw [ih.1, State.tableWrite, List.modify_modify_eq]
    rfl

end Sys2Proof.Machine
end

