-- ==== Sys2Proof/Laws/Commands.lean ====
section
/-! SUPPORT. One equation for each way a command can end, and the inversion of `step`. -/

namespace Sys2Proof.Machine

/-- A modified list is the list with one element set. -/
theorem modify_comp {α : Type} (f g : α → α) (l : List α) (k : Nat) :
    (l.modify k f).modify k g = l.modify k (fun a => g (f a)) := by
  rw [List.modify_modify_eq]; rfl

/-- The end of a successful `BUILD` of slot `k`. -/
def State.afterBuild (s : State) (k : Nat) : State :=
  { s with
    slots := s.slots.modify k (fun _ => { valid := true, table := buildTable s.arg0 })
    work := freeWork s.lenw s.draws
    requests := s.requests.tail
    response := some { status := Status.ok.code, result := zext32 (handleOfSlot k) }
    draws := s.draws + 5 }

theorem execBuild_none {s : State} (h : s.alloc = none) :
    execBuild s = .next (s.raise .allocationFailure) := by
  have h' : (s.setPoly s.arg0).alloc = none := h
  simp only [execBuild, h']; rfl

theorem execBuild_some {s : State} {k : Nat} (h : s.alloc = some k) :
    execBuild s = .next (s.afterBuild k) := by
  have h' : (s.setPoly s.arg0).alloc = some k := h
  obtain ⟨h1, -, h3, h4, h5, h6⟩ := foldl_buildEntry k allBytes (s.setPoly s.arg0)
  simp only [execBuild, h', respond_eq, State.finish, State.setValid, buildLoop, State.afterBuild,
    h1, h3, h4, h5, h6, modify_comp, fillTable_allBytes]
  rfl

/-- The end of a successful `RELEASE` of handle `h`. -/
def State.afterRelease (s : State) (h : Handle) : State :=
  { s with
    slots := s.slots.modify (slotOf h) (fun _ => { valid := false, table := freeTable s.draws })
    work := freeWork s.lenw (s.draws + 256)
    requests := s.requests.tail
    response := some { status := Status.ok.code, result := 0 }
    draws := s.draws + 261 }

theorem execRelease_ok {s : State} {h : Handle} (hr : s.releasable h = true) :
    execRelease h s = .next (s.afterRelease h) := by
  have h' : (s.setH h).releasable (s.setH h).work.h = true := hr
  simp only [execRelease, h', if_true, respond_eq, State.finish, State.setValid,
    State.forgetTable, State.afterRelease, modify_comp]
  rfl

theorem execRelease_invalid {s : State} {h : Handle} (hr : s.releasable h = false) :
    execRelease h s = .next (s.raise (.releaseInvalidHandle h)) := by
  have h' : (s.setH h).releasable (s.setH h).work.h = false := hr
  simp only [execRelease, h']; rfl

/-- The loop of `CRC`, from any position within the delivered bytes. -/
theorem crcLoop_eq (T : Table) (m n : Nat) (s : State) (hn : n ≤ s.data.length) :
    crcLoop T m n s =
      if n + m ≤ s.data.length then
        some (s.setAcc (crcUpdate T s.work.acc ((s.data.drop n).take m)))
      else none := by
  induction m generalizing n s with
  | zero => rw [if_pos (by omega)]; rfl
  | succ m ih =>
    rcases Nat.lt_or_ge n s.data.length with hlt | hge
    · have hd : s.dataRead n = some s.data[n] := List.getElem?_eq_getElem hlt
      have hdata : ∀ v, (s.setAcc v).data = s.data := fun _ => rfl
      rw [crcLoop, hd]
      simp only
      rw [ih (n + 1) _ (by rw [hdata]; omega), hdata, List.drop_eq_getElem_cons hlt,
        List.take_succ_cons, setAcc_acc, setAcc_setAcc]
      simp only [crcUpdate, Nat.add_assoc, Nat.add_comm 1 m]
    · have hd : s.dataRead n = none := List.getElem?_eq_none hge
      rw [crcLoop, hd, if_neg (by omega)]

theorem execCrc_invalid {s : State} {h : Handle} (hv : s.tableOf h = none) :
    execCrc h s = .next (s.raise (.crcInvalidHandle h)) := by
  have h' : (s.setH h).tableOf (s.setH h).work.h = none := hv
  simp only [execCrc, h']; rfl

theorem execCrc_eq {s : State} {h : Handle} {T : Table} (hv : s.tableOf h = some T) :
    execCrc h s =
      if s.arg1.toNat ≤ s.data.length then
        .next (s.finish .ok (crc32 T (s.data.take s.arg1.toNat) s.arg0))
      else .fault .dataUnderrun := by
  have h' : (s.setH h).tableOf (s.setH h).work.h = some T := hv
  have hl := crcLoop_eq T s.arg1.toNat 0
    (((s.setH h).setLen s.arg1).setAcc (complement s.arg0)) (Nat.zero_le _)
  simp only [Nat.zero_add, List.drop_zero, setAcc_acc, setAcc_setAcc] at hl
  simp only [execCrc, h']
  change (match crcLoop T s.arg1.toNat 0
      (((s.setH h).setLen s.arg1).setAcc (complement s.arg0)) with
    | none => Host.Outcome.fault Fault.dataUnderrun
    | some u => Host.Outcome.next (u.respond (complement u.work.acc))) = _
  rw [hl]
  have hd : (((s.setH h).setLen s.arg1).setAcc (complement s.arg0)).data = s.data := rfl
  rw [hd]
  split_ifs <;> rfl

/-- A slot number below `NSLOTS` has a slot. -/
theorem validBit_eq_true {s : State} {k : Nat} :
    s.validBit k = true ↔ ∃ sl, s.slots[k]? = some sl ∧ sl.valid = true := by
  simp [State.validBit, Option.any_eq_true]

/-- A table is named exactly by a valid handle. -/
theorem tableOf_eq_none {s : State} {h : Handle} : s.tableOf h = none ↔ s.validHandle h = false := by
  unfold State.tableOf State.validHandle
  cases isConst h
  · cases hl : s.live h
    · simp
    · obtain ⟨sl, h1, -⟩ := validBit_eq_true.mp (Bool.and_eq_true_iff.mp hl).2
      simp [h1]
  · simp

theorem tableOf_of_valid {s : State} {h : Handle} (hv : s.validHandle h = true) :
    ∃ T, s.tableOf h = some T := by
  cases ht : s.tableOf h with
  | some T => exact ⟨T, rfl⟩
  | none => rw [tableOf_eq_none] at ht; simp [hv] at ht

/-- Everything a step can do. -/
theorem step_cases {s t : State} (h : step s = .next t) :
    (s.requests = [] ∧ t = s) ∨
    (s.requests ≠ [] ∧
      ((∃ k, s.decoded = .ok .build ∧ s.alloc = some k ∧ t = s.afterBuild k) ∨
       (s.decoded = .ok .build ∧ s.alloc = none ∧ t = s.raise .allocationFailure) ∨
       (∃ a, s.decoded = .ok (.release a) ∧ s.releasable a = true ∧ t = s.afterRelease a) ∨
       (∃ a, s.decoded = .ok (.release a) ∧ s.releasable a = false ∧
          t = s.raise (.releaseInvalidHandle a)) ∨
       (∃ a T, s.decoded = .ok (.crc a) ∧ s.tableOf a = some T ∧
          s.arg1.toNat ≤ s.data.length ∧
          t = s.finish .ok (crc32 T (s.data.take s.arg1.toNat) s.arg0)) ∨
       (∃ a, s.decoded = .ok (.crc a) ∧ s.tableOf a = none ∧
          t = s.raise (.crcInvalidHandle a)) ∨
       (∃ e, s.decoded = .error e ∧ t = s.raise (.illegalCommand s.request.cmd)))) := by
  unfold step at h
  split at h
  · rename_i hr; cases h; exact .inl ⟨hr, rfl⟩
  · rename_i r rest hr
    refine .inr ⟨by simp [hr], ?_⟩
    split at h
    · rename_i i hd
      cases i with
      | build =>
        change execBuild s = _ at h
        cases ha : s.alloc with
        | none => rw [execBuild_none ha] at h; cases h; exact .inr (.inl ⟨hd, rfl, rfl⟩)
        | some k => rw [execBuild_some ha] at h; cases h; exact .inl ⟨k, hd, rfl, rfl⟩
      | release a =>
        change execRelease a s = _ at h
        cases hr : s.releasable a with
        | true =>
          rw [execRelease_ok hr] at h; cases h; exact .inr (.inr (.inl ⟨a, hd, hr, rfl⟩))
        | false =>
          rw [execRelease_invalid hr] at h; cases h
          exact .inr (.inr (.inr (.inl ⟨a, hd, hr, rfl⟩)))
      | crc a =>
        change execCrc a s = _ at h
        cases ht : s.tableOf a with
        | none =>
          rw [execCrc_invalid ht] at h; cases h
          exact .inr (.inr (.inr (.inr (.inr (.inl ⟨a, hd, ht, rfl⟩)))))
        | some T =>
          rw [execCrc_eq ht] at h
          split at h
          · rename_i hle
            cases h
            exact .inr (.inr (.inr (.inr (.inl ⟨a, T, hd, ht, hle, rfl⟩))))
          · cases h
    · rename_i e hd
      cases h
      exact .inr (.inr (.inr (.inr (.inr (.inr ⟨e, hd, rfl⟩)))))

end Sys2Proof.Machine
end

