-- ==== Sys2Proof/Laws/PerInstr.lean ====
section
/-! SUPPORT. Statements for every command, one lemma for each constructor. -/

namespace Sys2Proof

/-- The row of the opcode map a command belongs to (30_encoding.md rule R82). -/
def Instr.row : Instr → OpcodeRow
  | .build => { mnemonic := "BUILD", pattern := 0x00000001, mask := 0xFFFFFFFF }
  | .release _ => { mnemonic := "RELEASE", pattern := 0x00000002, mask := 0xFFFF00FF }
  | .crc _ => { mnemonic := "CRC", pattern := 0x00000003, mask := 0xFFFF00FF }

/-- The word of a command is selected by its own row, which the map lists. -/
def Laws.RowSelected.Statement (i : Instr) : Prop :=
  i.row ∈ opcodeMap ∧ i.row.mnemonic = i.mnemonic ∧ i.row.selects (encode i) = true

theorem Laws.RowSelected.build : Laws.RowSelected.Statement .build := by
  refine ⟨?_, rfl, ?_⟩ <;> decide

theorem Laws.RowSelected.release (h : Handle) : Laws.RowSelected.Statement (.release h) := by
  refine ⟨by simp [Instr.row, opcodeMap], rfl, ?_⟩
  revert h; decide +kernel

theorem Laws.RowSelected.crc (h : Handle) : Laws.RowSelected.Statement (.crc h) := by
  refine ⟨by simp [Instr.row, opcodeMap], rfl, ?_⟩
  revert h; decide +kernel

end Sys2Proof
end

