-- ==== Sys2Proof/Tests/Slice0.lean ====
section
/-! SUPPORT. Tests with the spec's own vectors (95_test_vectors.md and the examples of the rules),
and for each statement with hypotheses a witness that meets them. -/

namespace Sys2Proof.Tests

open Sys2Proof.Machine

/-- `"123456789"` (95_test_vectors.md). -/
def nine : List Byte := [0x31, 0x32, 0x33, 0x34, 0x35, 0x36, 0x37, 0x38, 0x39]

/-- A core with the given slots (`none`: free; `some P`: holds `build_table(P)`) and requests. -/
def coreOf (slots : List (Option Word)) (requests : List Request) : State :=
  { State.reset with
    slots := slots.map (fun
      | none => Slot.reset
      | some P => { valid := true, table := buildTable P })
    requests := requests }

/-- `NSLOTS = 4` with slot 0 built, the start of V7 and V14. -/
def oneBuilt (r : Request) : State := coreOf [some 0xeb31d82e, none, none, none] [r]

/-- A request for a command whose operands do not matter. -/
def wordOnly (cmd : Word) : Request := { cmd := cmd, arg0 := 0, arg1 := 0, data := [] }

/-- `CRC h, 0, "123456789"`. -/
def crcNine (h : Handle) : Request := requestOf (.crc h 0 nine)

/-- The outcome is a next state of which `p` holds. -/
def next (o : Host.Outcome State Fault Refusal) (p : State → Bool) : Bool :=
  match o with
  | .next t => p t
  | .fault _ => false
  | .refused _ => false

/-- The command is stuck for want of data. -/
def stuck (o : Host.Outcome State Fault Refusal) : Bool :=
  match o with
  | .next _ => false
  | .fault f => f == .dataUnderrun
  | .refused _ => false

/-- The response of a state is `(status, result)`. -/
def answered (status : Byte) (result : Word) (t : State) : Bool :=
  t.response == some { status := status, result := result }

/-- The valid bits of a state. -/
def bits (t : State) : List Bool := t.slots.map Slot.valid

/-! ### Well-formedness: an ill-formed term for each check -/

theorem test_wf_nslots : Config.wf { nslots := 129, lenw := 32 } = false := by decide
theorem test_wf_lenw_zero : Config.wf { nslots := 4, lenw := 0 } = false := by decide
theorem test_wf_lenw_wide : Config.wf { nslots := 4, lenw := 65 } = false := by decide
theorem test_wf_bounds : Config.wf { nslots := 128, lenw := 64 } = true ∧
    Config.wf { nslots := 0, lenw := 1 } = true ∧ Config.default.wf = true := by decide
theorem test_wf_length_too_wide :
    Request.lengthFits 4 { cmd := 0x103, arg0 := 0, arg1 := 16, data := [] } = false := by decide
theorem test_wf_length_not_delivered :
    Request.complete 32 { cmd := 0x103, arg0 := 0, arg1 := 2, data := [0x31] } = false := by decide
theorem test_wf_written_too_long :
    Written.wf 1 (.crc ieee 0 [0x31, 0x32]) = false ∧ Written.wf 1 (.crc ieee 0 [0x31]) = true := by
  decide

/-! ### Decoding: words written out from rule R81 (`RSV`, `HANDLE`, `OPCODE`), V13 -/

theorem test_decode_build : decode 0b0000000000000000_00000000_00000001 = .ok .build := by decide
theorem test_decode_release :
    decode 0b0000000000000000_10000000_00000010 = .ok (.release 0x80) := by decide
theorem test_decode_crc : decode 0b0000000000000000_00000001_00000011 = .ok (.crc 0x01) := by decide
theorem test_decode_legal_words_of_V13 :
    decode 0x00000002 = .ok (.release 0x00) ∧ decode 0x0000ff03 = .ok (.crc 0xff) ∧
    decode 0x00000403 = .ok (.crc koopmanHd18) := by decide
theorem test_decode_illegal_words_of_V13 :
    [0x00000000, 0x00000004, 0x000000ff, 0x000080ff, 0x00000101, 0x00008001, 0x00010001,
      0x00010003, 0x80000102, 0xffffffff].map (fun w : Word => decode w) =
    [.error .unassignedOpcode, .error .unassignedOpcode, .error .unassignedOpcode,
      .error .unassignedOpcode, .error .buildWithHandle, .error .buildWithHandle,
      .error .reservedBits, .error .reservedBits, .error .reservedBits, .error .reservedBits] := by
  decide
/-- Rule R91: the words of the three written forms. -/
theorem test_encode : encode .build = 0x00000001 ∧ encode (.release 0x80) = 0x00008002 ∧
    encode (.crc 0x01) = 0x00000103 := by decide
theorem test_decodeTableWord : decodeTableWord 32 0x00000103 = some (.crc 0x01) ∧
    decodeTableWord 32 0x00010001 = none ∧ decodeTableWord 40 0x100000001 = none := by decide

/-! ### The functions: V10, rules R121 and R140, V12 -/

theorem test_rstep :
    rstep 0xedb88320 3 = 0xedb88321 ∧ rstep 0xedb88320 0x80000000 = 0x40000000 ∧
    rstep 0xedb88320 0xffffffff = 0x92477cdf ∧ rstep 0xffffffff 0xffffffff = 0x80000000 := by decide
/-- The two traces of rule R121 after three steps, and their ends. -/
theorem test_entry :
    rsteps 0xedb88320 3 1 = 0x3b6e20c8 ∧ entry 0xedb88320 1 = 0x77073096 ∧
    rsteps 0xedb88320 3 0xff = 0xa00ae267 ∧ entry 0xedb88320 0xff = 0x2d02ef8d ∧
    entry 0x12345678 3 = 0x022a333a := by decide
/-- The rows `n = 0` and `n = 8` of rule R140. -/
theorem test_accStep :
    accStep (rom 0) 0xffffffff 0x31 = 0x7c231048 ∧
    accStep (rom 0) 0x651f2550 0x39 = 0x340bc6d9 := by decide +kernel

/-! ### BUILD -/

/-- The example of rule R114. -/
theorem test_build :
    next (exec .build (coreOf [none, none, none, none] [requestOf (.build 0xedb88320)])) (fun t =>
      answered 0 0x80 t && bits t == [true, false, false, false] &&
      [0, 1, 128, 255].map (t.tableRead 0x80) ==
        [some 0, some 0x77073096, some 0xedb88320, some 0x2d02ef8d]) = true := by decide +kernel

/-- V8: the lowest free slot is taken; with none free, `(AllocationFailure, 0)`. -/
theorem test_build_lowest_and_full :
    next (exec .build (coreOf [some 0, none, some 1, none] [requestOf (.build 0x82f63b78)])) (fun t =>
      answered 0 0x81 t && bits t == [true, true, true, false]) = true ∧
    next (exec .build (coreOf [some 0, some 1] [requestOf (.build 0x82f63b78)])) (fun t =>
      answered 1 0 t && t.tableRead 0x81 1 == some 1) = true := by decide +kernel

/-! ### RELEASE -/

/-- V7, the row that succeeds. -/
theorem test_release :
    next (exec (.release 0x80) (oneBuilt (wordOnly 0x00008002))) (fun t =>
      answered 0 0 t && bits t == [false, false, false, false]) = true := by decide +kernel

/-- V7, the other rows: `(InvalidHandle, 0)` and the table stays. -/
theorem test_release_invalid :
    ([0x00, 0x01, 0x02, 0x03, 0x04, 0x05, 0x7f, 0x81, 0x84, 0xff] : List Handle).all (fun h =>
      next (exec (.release h) (oneBuilt (requestOf (.release h)))) (fun t =>
        answered 2 0 t && bits t == [true, false, false, false])) = true := by decide +kernel

/-! ### CRC -/

/-- V14, the rows that succeed; the seeds of V4. -/
theorem test_crc :
    ([(0x01, 0xcbf43926), (0x02, 0xe3069283), (0x03, 0x2d3dd0ae), (0x04, 0x63055c8c),
        (0x80, 0x2d3dd0ae)] : List (Handle × Word)).all (fun p =>
      next (exec (.crc p.1) (oneBuilt (crcNine p.1))) (fun t =>
        answered 0 p.2 t && bits t == [true, false, false, false])) = true ∧
    next (exec (.crc 0x01) (oneBuilt (requestOf (.crc 0x01 0xdeadbeef nine))))
      (answered 0 0xe34f7c78) = true := by decide +kernel

/-- V14, the other rows: `InvalidHandle`, nothing changed, the host's fault recorded. -/
theorem test_crc_invalid :
    ([0x00, 0x05, 0x7f, 0x81, 0x84, 0xff] : List Handle).all (fun h =>
      next (exec (.crc h) (oneBuilt (crcNine h))) (fun t =>
        t.response.map Response.status == some 2 && bits t == [true, false, false, false] &&
        t.hostFaults == [.crcInvalidHandle h])) = true := by decide +kernel

/-! ### Between commands -/

/-- Rule R238: two of nine bytes delivered. -/
theorem test_underrun :
    stuck (exec (.crc 0x01) (oneBuilt { crcNine 0x01 with data := [0x31, 0x32] })) = true := by
  decide +kernel
/-- V13: an illegal word with a handle that names nothing. -/
theorem test_illegal_word :
    next (step (oneBuilt (wordOnly 0x00010003))) (fun t =>
      answered 3 0 t && bits t == [true, false, false, false] && t.requests.isEmpty) = true := by
  decide +kernel
theorem test_idle : step State.reset = .next State.reset := rfl
/-- The first step after reset runs the word placed at the interface. -/
theorem test_first_step :
    next (step (State.reset.withFetchWord 32 0x00000001)) (answered 0 0x80) = true := by
  decide +kernel
/-- Rule R231: reset with a request pending. -/
theorem test_reset_event :
    bits (oneBuilt (crcNine 0x80)).onReset = [false, false, false, false] ∧
    (oneBuilt (crcNine 0x80)).onReset.requests = [] := by decide +kernel

/-! ### Witnesses: states and operands that meet the hypotheses of each statement -/

theorem witness_DecoderReadsTheThreeFields : decode 0x00000001 = .ok .build := by decide
/-- The longest data `LENW = 4` admits. -/
theorem witness_WrittenCommandSpellsItsRequest :
    (4 : Nat) ≤ 64 ∧ (Written.crc ieee 0 (List.replicate 15 0x31)).wf 4 = true ∧
    (1 : Nat) ≤ 64 ∧ (Written.crc ieee 0 [0x31]).wf 1 = true := by decide
/-- One word of each kind rule R86 lists; a legal word of each command with a handle that names
nothing. -/
theorem witness_IllegalWordsAnswerIllegalCommand :
    ([0x00010001, 0x00000000, 0x00000004, 0x000000ff, 0x00000101] : List Word).all (fun w =>
      (oneBuilt (wordOnly w)).requests == [wordOnly w] && decide (∃ e ∈ ([.reservedBits,
        .buildWithHandle, .unassignedOpcode] : List Illegal), decode w = .error e)) = true ∧
    (oneBuilt (wordOnly 0x00008102)).requests = [wordOnly 0x00008102] ∧
    decode 0x00008102 = .ok (.release 0x81) ∧
    (oneBuilt (wordOnly 0x00008102)).validHandle 0x81 = false ∧
    (oneBuilt (wordOnly 0x00000003)).requests = [wordOnly 0x00000003] ∧
    decode 0x00000003 = .ok (.crc 0x00) ∧
    (oneBuilt (wordOnly 0x00000003)).validHandle 0x00 = false := by decide +kernel
/-- Each class at the ends of its range, with no slot, with four, and with all 128. -/
theorem witness_HandleClassesPartitionTheHandles :
    isNull 0x00 = true ∧ isConst 0x01 = true ∧ isConst 0x04 = true ∧ isConst 0x05 = false ∧
    isDyn 0 0x80 = false ∧ isDyn 4 0x83 = true ∧ isDyn 4 0x84 = false ∧
    isDyn 128 0x7f = false ∧ isDyn 128 0x80 = true ∧ isDyn 128 0xff = true ∧
    slotOf (handleOfSlot 127) = 127 := by decide
theorem witness_TableReadFollowsTheHandle :
    isConst 0x04 = true ∧ (oneBuilt (wordOnly 0)).live 0x80 = true ∧
    (oneBuilt (wordOnly 0)).validHandle 0x81 = false := by decide +kernel
theorem witness_TableWriteWritesOneEntry :
    (coreOf [none] []).slots[0]? = some Slot.reset := rfl
theorem witness_DeliveredByteIsReadAtItsPosition :
    (oneBuilt { crcNine 0x01 with data := [0x31] }).requests ≠ [] ∧
    0 < (oneBuilt { crcNine 0x01 with data := [0x31] }).data.length := by decide +kernel
theorem witness_TableIsLinearInItsIndex :
    ∀ j < 8, entry 0xedb88320 (1#8 <<< j) = entry 0xedb88320 (1#8 <<< j) := fun _ _ => rfl
theorem witness_BasisEntriesAreStepsOfThePolynomial : 0 < 8 ∧ 7 < 8 := by decide
theorem witness_OneChangedByteChangesTheChecksum :
    (0xedb88320 : Word).getLsbD 31 = true ∧ (0x31 : Byte) ≠ 0x30 := by decide
/-- The last of 128 slots free, and the first of four. -/
theorem witness_BuildCompletesInTheLowestFreeSlot :
    ((coreOf (List.replicate 127 (some 0) ++ [none]) []).nslots ≤ 128 ∧
      (coreOf (List.replicate 127 (some 0) ++ [none]) []).slots.any (fun sl => !sl.valid) = true) ∧
    State.reset.nslots ≤ 128 ∧ State.reset.slots.any (fun sl => !sl.valid) = true := by
  decide +kernel
theorem witness_BuildFailsWhenEverySlotIsValid :
    (coreOf [some 0, some 1] []).slots.all Slot.valid = true ∧
    (coreOf [] []).slots.all Slot.valid = true := by decide +kernel
theorem witness_BuildIsDeterministic :
    (coreOf [none] [requestOf (.build 5)]).arg0 = (coreOf [some 0, none] [requestOf (.build 5)]).arg0 ∧
    (coreOf [none] [requestOf (.build 5)]).alloc = some 0 ∧
    (coreOf [some 0, none] [requestOf (.build 5)]).alloc = some 1 := by decide +kernel
theorem witness_FailedBuildLeavesTheNullHandle :
    next (exec .build (coreOf [some 0] [requestOf (.build 5)])) (fun t =>
      t.response.any (fun p => p.status != Status.ok.code)) = true := by decide +kernel
theorem witness_ReleaseCompletesAndFreesTheSlot :
    (oneBuilt (wordOnly 0x00008002)).releasable 0x80 = true := by decide +kernel
theorem witness_ReleaseOfAnInvalidHandleChangesNothing :
    (oneBuilt (wordOnly 0x00008102)).releasable 0x81 = false ∧
    (oneBuilt (wordOnly 0x00000102)).releasable 0x01 = false := by decide +kernel
/-- No slot, four slots, and all 128. -/
theorem witness_OnlyLiveSlotsAreReleasable :
    (coreOf [] []).nslots ≤ 128 ∧ (oneBuilt (wordOnly 0)).nslots ≤ 128 ∧
    (coreOf (List.replicate 128 none) []).nslots ≤ 128 ∧
    (coreOf (List.replicate 128 (some 0)) []).releasable (handleOfSlot 127) = true := by
  decide +kernel
/-- The state right after the release is itself one in which the slot is not rebuilt. -/
theorem witness_UseAfterReleaseIsDetected :
    (oneBuilt (wordOnly 0x00008002)).releasable 0x80 = true ∧
    next (exec (.release 0x80) (oneBuilt (wordOnly 0x00008002))) (fun t =>
      t.slots.length == t.slots.length && !t.validBit (slotOf 0x80)) = true := by decide +kernel
theorem witness_ReleasedHandleIsHandedOutAgain :
    (coreOf [some 0, some 1] [wordOnly 0x00008102, requestOf (.build 5)]).nslots ≤ 128 ∧
    (coreOf [some 0, some 1] [wordOnly 0x00008102, requestOf (.build 5)]).releasable 0x81 = true ∧
    (List.range (slotOf 0x81)).all
      (coreOf [some 0, some 1] [wordOnly 0x00008102, requestOf (.build 5)]).validBit = true := by
  decide +kernel
theorem witness_CrcCompletesWithTheChecksum :
    (oneBuilt (crcNine 0x80)).validHandle 0x80 = true ∧
    (oneBuilt (crcNine 0x80)).arg1.toNat ≤ (oneBuilt (crcNine 0x80)).data.length := by
  decide +kernel
theorem witness_CrcOfAnInvalidHandleChangesNothing :
    (oneBuilt (crcNine 0x00)).validHandle 0x00 = false := by decide +kernel
theorem witness_ZeroLengthCrcReturnsTheSeed :
    (oneBuilt (requestOf (.crc 0x03 0xdeadbeef []))).arg1 = 0 ∧
    (oneBuilt (requestOf (.crc 0x03 0xdeadbeef []))).validHandle 0x03 = true ∧
    (oneBuilt (requestOf (.crc 0x03 0xdeadbeef []))).validHandle 0x81 = false := by decide +kernel
/-- The built slot and the constant table of the same polynomial. -/
theorem witness_ChecksumDependsOnTheTableOnly :
    (oneBuilt (crcNine 0x80)).tableOf 0x80 = some (buildTable 0xeb31d82e) ∧
    (oneBuilt (crcNine 0x03)).tableOf 0x03 = some (buildTable 0xeb31d82e) ∧
    (oneBuilt (crcNine 0x80)).arg0 = (oneBuilt (crcNine 0x03)).arg0 ∧
    (oneBuilt (crcNine 0x80)).arg1 = (oneBuilt (crcNine 0x03)).arg1 ∧
    (oneBuilt (crcNine 0x80)).data = (oneBuilt (crcNine 0x03)).data ∧
    (oneBuilt (crcNine 0x80)).arg1.toNat ≤ (oneBuilt (crcNine 0x80)).data.length :=
  ⟨rfl, rfl, rfl, rfl, rfl, by decide +kernel⟩
theorem witness_OneByteCrcReadsATableEntry :
    (oneBuilt (requestOf (.crc 0x80 0xffffffff [0x80]))).validHandle 0x80 = true ∧
    (oneBuilt (requestOf (.crc 0x80 0xffffffff [0x80]))).arg0 = 0xffffffff ∧
    (oneBuilt (requestOf (.crc 0x80 0xffffffff [0x80]))).arg1 = 1 ∧
    (oneBuilt (requestOf (.crc 0x80 0xffffffff [0x80]))).data = [0x80] := by decide +kernel
/-- A `BUILD` of the Koopman-hd18 polynomial followed by a `CRC` request. -/
theorem witness_BuiltAndConstantTablesAgree :
    (coreOf [none] [requestOf (.build 0x973afb51), crcNine 0x80]).nslots ≤ 128 ∧
    (coreOf [none] [requestOf (.build 0x973afb51), crcNine 0x80]).alloc = some 0 ∧
    (coreOf [none] [requestOf (.build 0x973afb51), crcNine 0x80]).arg0 = polyC[(3 : Fin 4)] ∧
    next (exec .build (coreOf [none] [requestOf (.build 0x973afb51), crcNine 0x80])) (fun t =>
      decide (t.arg1.toNat ≤ t.data.length)) = true := by decide +kernel
/-- One byte of two missing; then that byte. -/
theorem witness_DataUnderrunIsStuckUntilTheBytesArrive :
    (oneBuilt { cmd := 0x103, arg0 := 0, arg1 := 2, data := [0x31] }).validHandle 0x01 = true ∧
    (oneBuilt { cmd := 0x103, arg0 := 0, arg1 := 2, data := [0x31] }).data.length <
      (oneBuilt { cmd := 0x103, arg0 := 0, arg1 := 2, data := [0x31] }).arg1.toNat ∧
    (oneBuilt { cmd := 0x103, arg0 := 0, arg1 := 2, data := [0x31] }).requests ≠ [] ∧
    (oneBuilt { cmd := 0x103, arg0 := 0, arg1 := 2, data := [0x31] }).arg1.toNat =
      (oneBuilt { cmd := 0x103, arg0 := 0, arg1 := 2, data := [0x31] }).data.length +
        [(0x32 : Byte)].length := by decide +kernel
/-- `LENW` at its smallest admitted value. -/
theorem witness_KnownAnswerTest :
    4 ≤ { State.reset with lenw := 4, requests := [crcNine 0x01] }.lenw ∧
    { State.reset with lenw := 4, requests := [crcNine 0x01] }.requests =
      [{ cmd := 0x00000103, arg0 := 0, arg1 := 9, data := nine }] := by decide +kernel
theorem witness_StepRunsTheDecodedCommand :
    (oneBuilt (crcNine 0x01)).requests = [crcNine 0x01] ∧
    decode (crcNine 0x01).cmd = .ok (.crc 0x01) := by decide +kernel
theorem witness_IdleCoreKeepsItsState : State.reset.requests = [] := rfl
/-- Also for `SubmittedRequestsWaitTheirTurn`, `ResultFollowsCommandAndStatus`: every kind of
request goes on with a next state. -/
theorem witness_RequestsAreAnsweredInOrder :
    [requestOf (.build 5), wordOnly 0x00008002, wordOnly 0x00008102, crcNine 0x80, crcNine 0x81,
      wordOnly 0].all (fun r =>
        (oneBuilt r).requests != [] && next (step (oneBuilt r)) (fun _ => true)) = true := by
  decide +kernel
theorem witness_EveryCompleteRequestIsAnswered :
    (crcNine 0x81).complete (oneBuilt (crcNine 0x81)).lenw = true ∧
    ∀ h, decode (wordOnly 0x00008002).cmd ≠ .ok (.crc h) := by
  refine ⟨by decide +kernel, fun h => ?_⟩
  rw [show decode (wordOnly 0x00008002).cmd = .ok (.release 0x80) by decide]
  simp
/-- A valid slot that stays, and one that is released. -/
theorem witness_ValidTablesAreImmutable :
    (oneBuilt (crcNine 0x80)).slots[0]?.any Slot.valid = true ∧
    next (step (oneBuilt (crcNine 0x80))) (fun t => t.validBit 0) = true ∧
    next (step (oneBuilt (wordOnly 0x00008002))) (fun t => !t.validBit 0) = true := by
  decide +kernel
/-- A valid bit that is set, and one that is cleared. -/
theorem witness_OnlyBuildSetsAndOnlyReleaseClearsAValidBit :
    next (step (oneBuilt (requestOf (.build 5)))) (fun t =>
      !(oneBuilt (requestOf (.build 5))).validBit 1 && t.validBit 1) = true ∧
    next (step (oneBuilt (wordOnly 0x00008002))) (fun t =>
      (oneBuilt (wordOnly 0x00008002)).validBit 0 && !t.validBit 0) = true := by decide +kernel
/-- Each of the three exceptions. -/
theorem witness_ExceptionsLeaveEverySlotAlone :
    [coreOf [some 0] [requestOf (.build 5)], oneBuilt (wordOnly 0x00008102), oneBuilt (crcNine 0),
      oneBuilt (wordOnly 0)].all (fun s =>
        s.requests != [] && next (step s) (fun t =>
          t.response.any (fun p => p.status != Status.ok.code))) = true := by decide +kernel
/-- A state with a valid slot that has the invariant, and goes on. -/
theorem witness_StepKeepsTheInvariant :
    (oneBuilt (crcNine 0x80)).Inv ∧ next (step (oneBuilt (crcNine 0x80))) (fun _ => true) = true := by
  refine ⟨⟨by decide +kernel, ?_, by decide +kernel, by intro r h; cases h⟩, by decide +kernel⟩
  intro sl h hv
  simp only [oneBuilt, coreOf, List.map_cons, List.map_nil, List.mem_cons, List.not_mem_nil,
    or_false] at h
  rcases h with rfl | rfl | rfl | rfl
  · exact ⟨0xeb31d82e, lookup_buildTable _⟩
  all_goals exact absurd hv (by decide)
theorem witness_ResetHasTheInvariant :
    Config.wf { nslots := 0, lenw := 1 } = true ∧ Config.wf { nslots := 128, lenw := 64 } = true ∧
    (oneBuilt (crcNine 0x80)).Inv :=
  ⟨by decide, by decide, witness_StepKeepsTheInvariant.1⟩
/-- Two states that differ in a working register, in an invalid slot's entries, in the earlier
response and in the counter of free values. -/
theorem witness_HiddenStateHasNoEffect :
    let s := oneBuilt (crcNine 0x80)
    let s' := { (s.setAcc 7).tableWrite 1 0x05 9 with
                response := some { status := 0, result := 1 }, draws := 300 }
    s ≠ s' ∧ s.arch = s'.arch ∧ s.lenw = s'.lenw ∧ s.requests = s'.requests :=
  ⟨fun h => absurd (congrArg State.draws h) (by decide), rfl, rfl, rfl⟩
theorem witness_OnlyMisuseIsUnsafe :
    (oneBuilt (crcNine 0x80)).hostFaults = [] ∧ (oneBuilt (crcNine 0x80)).wellUsed = true ∧
    (oneBuilt (crcNine 0x00)).wellUsed = false := by decide +kernel

end Sys2Proof.Tests
end

section
/-! The valid bits: what each update of the slots does to them, what a step does to them, and the
settling of O50 (10_state.md rule R22). -/

namespace Sys2Proof.Machine

@[simp] theorem validBit_finish (s : State) (st : Status) (r : Word) (j : Nat) :
    (s.finish st r).validBit j = s.validBit j := validBit_congr (finish_slots s st r) j

@[simp] theorem validBit_raise (s : State) (c : Cause) (j : Nat) :
    (s.raise c).validBit j = s.validBit j := validBit_congr (raise_slots s c) j

@[simp] theorem validBit_submit (s : State) (r : Request) (j : Nat) :
    (s.submit r).validBit j = s.validBit j := rfl

@[simp] theorem deliverBeat_slots (s : State) (d : Byte) : (s.deliverBeat d).slots = s.slots := by
  unfold State.deliverBeat
  split <;> rfl

/-- The valid bits once slot `k` is replaced, if there is such a slot. -/
theorem any_valid_modify_const (slots : List Slot) (k j : Nat) (new : Slot) :
    ((slots.modify k (fun _ => new))[j]?).any Slot.valid =
      if k = j then decide (j < slots.length) && new.valid else (slots[j]?).any Slot.valid := by
  rw [List.getElem?_modify]
  split
  case isTrue =>
    rcases Nat.lt_or_ge j slots.length with hlt | hge
    · simp [hlt]
    · simp [Nat.not_lt.mpr hge]
  case isFalse => simp

/-- A successful `BUILD` of slot `k` sets that slot's bit and keeps every other one. -/
theorem validBit_afterBuild (s : State) (k j : Nat) :
    (s.afterBuild k).validBit j = if k = j then decide (j < s.nslots) else s.validBit j := by
  rw [← Bool.and_true (decide _)]
  exact any_valid_modify_const s.slots k j { valid := true, table := buildTable s.arg0 }

/-- A successful `RELEASE` clears the bit of its handle's slot and keeps every other one. -/
theorem validBit_afterRelease (s : State) (h : Handle) (j : Nat) :
    (s.afterRelease h).validBit j = if slotOf h = j then false else s.validBit j := by
  rw [← Bool.and_false (decide (j < s.nslots))]
  exact any_valid_modify_const s.slots (slotOf h) j { valid := false, table := freeTable s.draws }

theorem lt_nslots_of_validBit {s : State} {j : Nat} (h : s.validBit j = true) : j < s.nslots := by
  obtain ⟨sl, hsl, -⟩ := validBit_eq_true.mp h
  exact (List.getElem?_eq_some_iff.mp hsl).1

/-- The slots after a reset event are all invalid. -/
theorem any_valid_freeSlots (m n j : Nat) : ((freeSlots m n)[j]?).any Slot.valid = false := by
  induction m generalizing n j with
  | zero => rfl
  | succ m ih =>
    cases j with
    | zero => rfl
    | succ j => exact ih (n + 256) j

theorem validBit_onReset (s : State) (j : Nat) : s.onReset.validBit j = false :=
  any_valid_freeSlots s.nslots (s.draws + 5) j

/-- Everything a step can do to the valid bits: it keeps them all, or it is a `BUILD` or a `RELEASE`
that succeeds. -/
theorem step_validBit_cases {s t : State} (h : step s = .next t) :
    (∀ j, t.validBit j = s.validBit j) ∨
    (∃ k, s.decoded = .ok .build ∧ s.alloc = some k ∧ t = s.afterBuild k) ∨
    (∃ a, s.decoded = .ok (.release a) ∧ s.releasable a = true ∧ t = s.afterRelease a) := by
  obtain ⟨-, rfl⟩ | ⟨-, hbuilt | ⟨-, -, rfl⟩ | hreleased | ⟨a, -, -, rfl⟩ | ⟨a, T, -, -, -, rfl⟩ |
    ⟨a, -, -, rfl⟩ | ⟨e, -, rfl⟩⟩ := step_cases h
  · exact .inl fun _ => rfl
  · exact .inr (.inl hbuilt)
  · exact .inl (validBit_raise s _)
  · exact .inr (.inr hreleased)
  · exact .inl (validBit_raise s _)
  · exact .inl (validBit_finish s _ _)
  · exact .inl (validBit_raise s _)
  · exact .inl (validBit_raise s _)

/-- A step that sets a valid bit is a successful `BUILD` of that slot. -/
theorem step_sets_validBit {s t : State} {k : Nat} (h : step s = .next t)
    (hs : s.validBit k = false) (ht : t.validBit k = true) :
    s.decoded = .ok .build ∧ s.alloc = some k ∧ t = s.afterBuild k := by
  obtain hsame | ⟨k', hd, ha, rfl⟩ | ⟨a, -, -, rfl⟩ := step_validBit_cases h
  · simp [← hsame, ht] at hs
  · have hk : k' = k := by
      by_contra hne
      simp [validBit_afterBuild, hne, hs] at ht
    exact ⟨hd, hk ▸ ha, hk ▸ rfl⟩
  · simp [validBit_afterRelease, hs] at ht

/-- A step that clears a valid bit is a successful `RELEASE` of that slot's handle. -/
theorem step_clears_validBit {s t : State} {k : Nat} (h : step s = .next t)
    (hs : s.validBit k = true) (ht : t.validBit k = false) :
    ∃ a, s.decoded = .ok (.release a) ∧ s.releasable a = true ∧ slotOf a = k ∧
      t = s.afterRelease a := by
  obtain hsame | ⟨k', -, -, rfl⟩ | ⟨a, hd, hr, rfl⟩ := step_validBit_cases h
  · simp [← hsame, ht] at hs
  · simp [validBit_afterBuild, hs, lt_nslots_of_validBit hs] at ht
  · have hk : slotOf a = k := by
      by_contra hne
      simp [validBit_afterRelease, hne, hs] at ht
    exact ⟨a, hd, hr, hk, rfl⟩

/-- Settles O50: a step that changes a valid bit is a successful `BUILD` or `RELEASE`, by the cases
of `step`; of the outside events only reset touches the slots. -/
theorem onlyBuildSetsAndOnlyReleaseClearsAValidBit :
    Obligations.OnlyBuildSetsAndOnlyReleaseClearsAValidBit := by
  refine ⟨fun s t k hstep => ⟨fun hs ht => ?_, fun hs ht => ?_⟩, fun s r d k =>
    ⟨validBit_submit s r k, validBit_congr (deliverBeat_slots s d) k, validBit_onReset s k⟩⟩
  · obtain ⟨hd, ha, rfl⟩ := step_sets_validBit hstep hs ht
    exact ⟨hd, ha, rfl⟩
  · obtain ⟨a, hd, hr, hk, rfl⟩ := step_clears_validBit hstep hs ht
    exact ⟨a, hd, (Bool.and_eq_true_iff.mp hr).1, hk, rfl⟩

end Sys2Proof.Machine
end

section
/-! The commands, each once, with the fields of its word (30_encoding.md rule R81). -/

namespace Sys2Proof

/-- The value of `OPCODE` in the word of a command (rule R81). -/
def Instr.opcode : Instr → Byte
  | .build => 0x01
  | .release _ => 0x02
  | .crc _ => 0x03

/-- The value of `HANDLE` in the word of a command (rule R81). -/
def Instr.handle : Instr → Handle
  | .build => 0x00
  | .release h => h
  | .crc h => h

/-- Every command once: `BUILD`, and `RELEASE` and `CRC` with each of the 256 handles. -/
def allInstrs : List Instr :=
  .build :: (Machine.allBytes.map .release ++ Machine.allBytes.map .crc)

theorem encode_eq_packFields (i : Instr) : encode i = packFields i.handle i.opcode := by
  cases i <;> rfl

theorem mem_allInstrs (i : Instr) : i ∈ allInstrs := by
  cases i with
  | build => exact List.mem_cons_self
  | release h =>
    exact .tail _ (List.mem_append_left _ (List.mem_map_of_mem (Machine.mem_allBytes h)))
  | crc h => exact .tail _ (List.mem_append_right _ (List.mem_map_of_mem (Machine.mem_allBytes h)))

theorem length_allInstrs : allInstrs.length = 513 := by
  change (Machine.allBytes.map Instr.release ++ Machine.allBytes.map Instr.crc).length + 1 = 513
  simp

theorem Machine.nodup_allBytes : Machine.allBytes.Nodup := by
  refine List.Nodup.map_on (fun a ha b hb hab => ?_) List.nodup_range
  have hmod : a % 256 = b % 256 := by simpa using congrArg BitVec.toNat hab
  rwa [Nat.mod_eq_of_lt (List.mem_range.mp ha), Nat.mod_eq_of_lt (List.mem_range.mp hb)] at hmod

theorem nodup_allInstrs : allInstrs.Nodup := by
  have hrelease : (Machine.allBytes.map Instr.release).Nodup :=
    List.Nodup.map (fun _ _ => Instr.release.inj) Machine.nodup_allBytes
  have hcrc : (Machine.allBytes.map Instr.crc).Nodup :=
    List.Nodup.map (fun _ _ => Instr.crc.inj) Machine.nodup_allBytes
  have hdisjoint :
      (Machine.allBytes.map Instr.release).Disjoint (Machine.allBytes.map Instr.crc) := by
    intro i hi hi'
    obtain ⟨h, -, rfl⟩ := List.mem_map.mp hi
    obtain ⟨h', -, heq⟩ := List.mem_map.mp hi'
    cases heq
  refine List.nodup_cons.mpr ⟨fun hmem => ?_, hrelease.append hcrc hdisjoint⟩
  obtain hi | hi := List.mem_append.mp hmem
  all_goals
    obtain ⟨h, -, hbuild⟩ := List.mem_map.mp hi
    cases hbuild

end Sys2Proof
end

section
/-! The three fields of a command word, the decoder as a function of them, and the settling of O2
(30_encoding.md rule R83). -/

namespace Sys2Proof

theorem opcodeField_toNat (w : Word) : (opcodeField w).toNat = w.toNat % 256 := by
  simp [opcodeField]

theorem handleField_toNat (w : Word) : (handleField w).toNat = w.toNat / 256 % 256 := by
  simp [handleField, Nat.shiftRight_eq_div_pow]

theorem rsvField_toNat (w : Word) : (rsvField w).toNat = w.toNat / 65536 := by
  have hw := w.isLt
  simp only [rsvField, BitVec.extractLsb'_toNat, Nat.shiftRight_eq_div_pow]
  omega

theorem packFields_toNat (h : Handle) (op : Byte) :
    (packFields h op).toNat = h.toNat * 256 + op.toNat := by
  have hh := h.isLt
  have hop := op.isLt
  have hor : h.toNat <<< 8 ||| op.toNat = h.toNat * 256 + op.toNat := by
    rw [← Nat.shiftLeft_add_eq_or_of_lt hop, Nat.shiftLeft_eq]
  have hshift : (h.setWidth 32 <<< 8).toNat = h.toNat <<< 8 := by
    simp only [BitVec.toNat_shiftLeft, BitVec.toNat_setWidth, Nat.shiftLeft_eq]
    omega
  have hset : (op.setWidth 32).toNat = op.toNat := by
    rw [BitVec.toNat_setWidth]
    omega
  rw [packFields, BitVec.toNat_or, hshift, hset, hor]

/-- A word is packed from a handle and an opcode exactly when its three fields say so. -/
theorem eq_packFields_iff (w : Word) (h : Handle) (op : Byte) :
    w = packFields h op ↔ rsvField w = 0 ∧ opcodeField w = op ∧ handleField w = h := by
  have hh := h.isLt
  have hop := op.isLt
  simp only [← BitVec.toNat_inj, packFields_toNat, rsvField_toNat, opcodeField_toNat,
    handleField_toNat, show BitVec.toNat (0 : BitVec 16) = 0 from rfl]
  omega

/-- The decoder reads a command off the three fields and off nothing else. -/
theorem decode_eq_ok_iff_fields (w : Word) (i : Instr) :
    decode w = .ok i ↔ rsvField w = 0 ∧ opcodeField w = i.opcode ∧ handleField w = i.handle := by
  constructor
  · intro hd
    unfold decode at hd
    split_ifs at hd with hrsv hbuild hnull hrelease hcrc <;> cases hd
    · exact ⟨not_not.mp hrsv, hbuild, hnull⟩
    · exact ⟨not_not.mp hrsv, hrelease, rfl⟩
    · exact ⟨not_not.mp hrsv, hcrc, rfl⟩
  · rintro ⟨hrsv, hop, hh⟩
    rw [decode, hrsv, hop, hh]
    cases i <;> rfl

theorem decode_eq_ok_iff_eq_encode (w : Word) (i : Instr) : decode w = .ok i ↔ w = encode i := by
  rw [decode_eq_ok_iff_fields, encode_eq_packFields, eq_packFields_iff]

@[simp] theorem decode_encode (i : Instr) : decode (encode i) = .ok i :=
  (decode_eq_ok_iff_eq_encode _ i).mpr rfl

theorem encode_injective : Function.Injective encode := fun i j h => by
  have hd := decode_encode i
  rw [h, decode_encode] at hd
  exact (Except.ok.inj hd).symm

/-- Settles O2: the decoder reads the three fields, and its legal words are the encodings of the 513
commands. -/
theorem decoderReadsTheThreeFields : Obligations.DecoderReadsTheThreeFields := by
  refine ⟨fun w => decode_eq_ok_iff_fields w .build,
    fun w h => decode_eq_ok_iff_fields w (.release h),
    fun w h => decode_eq_ok_iff_fields w (.crc h),
    fun w w' i hw hw' => ?_, allInstrs.map encode,
    List.Nodup.map encode_injective nodup_allInstrs, ?_, ?_⟩
  · rw [(decode_eq_ok_iff_eq_encode w i).mp hw, (decode_eq_ok_iff_eq_encode w' i).mp hw']
  · rw [List.length_map, length_allInstrs]
  · intro w
    simp only [decode_eq_ok_iff_eq_encode, List.mem_map, mem_allInstrs, true_and]
    exact exists_congr fun i => eq_comm

end Sys2Proof
end

section
/-! The opcode map's masks as fields of the word, and the settling of O3 (30_encoding.md rule
R82). -/

namespace Sys2Proof

/-- The mask of `RELEASE` and `CRC` clears the handle field and keeps the other two. -/
theorem mask_eq_packFields_iff (w : Word) (op : Byte) :
    w &&& 0xFFFF00FF = packFields 0 op ↔ rsvField w = 0 ∧ opcodeField w = op := by
  have hrsv : rsvField (w &&& 0xFFFF00FF) = rsvField w := by
    simp only [rsvField, BitVec.extractLsb'_and]
    exact BitVec.and_allOnes
  have hop : opcodeField (w &&& 0xFFFF00FF) = opcodeField w := by
    simp only [opcodeField, BitVec.extractLsb'_and]
    exact BitVec.and_allOnes
  have hh : handleField (w &&& 0xFFFF00FF) = 0 := by
    simp only [handleField, BitVec.extractLsb'_and]
    exact BitVec.and_zero
  rw [eq_packFields_iff, hrsv, hop, hh]
  simp

/-- The word of every command is selected by its own row, whose mnemonic is the command's. -/
theorem rowSelected (i : Instr) : Laws.RowSelected.Statement i := by
  cases i with
  | build => exact Laws.RowSelected.build
  | release h => exact Laws.RowSelected.release h
  | crc h => exact Laws.RowSelected.crc h

/-- A row of the map selects the words that decode to a command of this row, and no others. -/
theorem row_selects_iff (w : Word) (i : Instr) :
    i.row.selects w = true ↔ ∃ j, decode w = .ok j ∧ j.row = i.row := by
  constructor
  · intro hsel
    have hmask : w &&& i.row.mask = i.row.pattern := beq_iff_eq.mp hsel
    cases i with
    | build =>
      have hw : w = encode .build := (BitVec.and_allOnes (x := w)).symm.trans hmask
      exact ⟨.build, hw ▸ decode_encode .build, rfl⟩
    | release h =>
      obtain ⟨hrsv, hop⟩ := (mask_eq_packFields_iff w 0x02).mp hmask
      exact ⟨.release (handleField w), (decode_eq_ok_iff_fields ..).mpr ⟨hrsv, hop, rfl⟩, rfl⟩
    | crc h =>
      obtain ⟨hrsv, hop⟩ := (mask_eq_packFields_iff w 0x03).mp hmask
      exact ⟨.crc (handleField w), (decode_eq_ok_iff_fields ..).mpr ⟨hrsv, hop, rfl⟩, rfl⟩
  · rintro ⟨j, hd, hrow⟩
    obtain ⟨-, -, hsel⟩ := rowSelected j
    rwa [← hrow, (decode_eq_ok_iff_eq_encode w j).mp hd]

theorem row_selects_of_decode_ok {w : Word} {j : Instr} (hd : decode w = .ok j) (i : Instr) :
    i.row.selects w = decide (j.row = i.row) := by
  rw [Bool.eq_iff_iff, decide_eq_true_iff, row_selects_iff, hd]
  exact ⟨fun ⟨_, hj, hrow⟩ => Except.ok.inj hj ▸ hrow, fun hrow => ⟨j, rfl, hrow⟩⟩

theorem row_selects_of_decode_error {w : Word} {e : Illegal} (hd : decode w = .error e)
    (i : Instr) : i.row.selects w = false := by
  rw [Bool.eq_false_iff, ne_eq, row_selects_iff, hd]
  rintro ⟨j, hj, -⟩
  cases hj

/-- Settles O3: each row selects the words of its own command, and the three rows differ. -/
theorem decodeFollowsOpcodeMap : Obligations.DecodeFollowsOpcodeMap := by
  refine ⟨fun w => ?_, by decide, by decide, by decide, by decide, by decide⟩
  have hmap : opcodeMap = [Instr.build.row, (Instr.release 0).row, (Instr.crc 0).row] := rfl
  cases hd : decode w with
  | error e => simp [hmap, row_selects_of_decode_error hd]
  | ok j =>
    simp only [hmap, List.filter_cons, row_selects_of_decode_ok hd]
    cases j <;> rfl

end Sys2Proof
end

section
/-! The requests of written commands, and the settling of O5 (30_encoding.md rule R91). -/

namespace Sys2Proof

theorem requestOf_cmd (c : Written) : (requestOf c).cmd = encode c.instr := by
  cases c <;> rfl

theorem encode_toNat (i : Instr) : (encode i).toNat = i.opcode.toNat + i.handle.toNat * 256 := by
  rw [encode_eq_packFields, packFields_toNat, Nat.add_comm]

/-- `ARG1` of a `CRC` request is the number of its data bytes, when that fits `LENW` bits. -/
theorem requestOf_crc_arg1_toNat {lenw : Nat} (hlenw : lenw ≤ 64) {h : Handle} {seed : Word}
    {data : List Byte} (hwf : (Written.crc h seed data).wf lenw = true) :
    (requestOf (.crc h seed data)).arg1.toNat = data.length := by
  have hfits : data.length < 2 ^ lenw := of_decide_eq_true hwf
  have hpow : 2 ^ lenw ≤ 2 ^ 64 := Nat.pow_le_pow_right (by decide) hlenw
  exact Nat.mod_eq_of_lt (hfits.trans_le hpow)

/-- A `CRC` request whose data's length fits `LENW` bits is complete. -/
theorem requestOf_crc_complete {lenw : Nat} (hlenw : lenw ≤ 64) {h : Handle} {seed : Word}
    {data : List Byte} (hwf : (Written.crc h seed data).wf lenw = true) :
    (requestOf (.crc h seed data)).complete lenw = true := by
  have hfits : data.length < 2 ^ lenw := of_decide_eq_true hwf
  have harg1 := requestOf_crc_arg1_toNat hlenw hwf
  simp only [Request.complete, Request.lengthFits, harg1, decide_eq_true hfits, Bool.true_and]
  exact decide_eq_true rfl

/-- Settles O5: a request's word is the encoding of its command, and its other registers are those
rule R91 writes. -/
theorem writtenCommandSpellsItsRequest : Obligations.WrittenCommandSpellsItsRequest :=
  ⟨fun c => requestOf_cmd c ▸ decode_encode c.instr, fun _ => ⟨rfl, rfl⟩,
    fun h => encode_toNat (.release h), fun h _ _ => ⟨encode_toNat (.crc h), rfl, rfl⟩,
    fun _ _ _ _ hlenw hwf =>
      ⟨requestOf_crc_arg1_toNat hlenw hwf, requestOf_crc_complete hlenw hwf⟩, rfl⟩

end Sys2Proof
end

section
/-! Illegal words and invalid handles: how a step on them ends, and the settling of O6
(30_encoding.md rule R86). -/

namespace Sys2Proof.Machine

/-- The words of no command (rule R86). -/
theorem exists_decode_eq_error_iff (w : Word) : (∃ e, decode w = .error e) ↔
    rsvField w ≠ 0 ∨ opcodeField w = 0x00 ∨ 0x04 ≤ (opcodeField w).toNat ∨
      (opcodeField w = 0x01 ∧ handleField w ≠ 0) := by
  unfold decode
  split_ifs with hrsv hbuild hnull hrelease hcrc
  · exact iff_of_true ⟨_, rfl⟩ (.inl hrsv)
  all_goals rw [ne_eq, not_not] at hrsv
  · simp [hrsv, hbuild, hnull]
  · exact iff_of_true ⟨_, rfl⟩ (.inr (.inr (.inr ⟨hbuild, hnull⟩)))
  · simp [hrsv, hrelease]
  · simp [hrsv, hcrc]
  · have hone : (opcodeField w).toNat ≠ 1 := BitVec.toNat_ne_iff_ne.mpr hbuild
    have htwo : (opcodeField w).toNat ≠ 2 := BitVec.toNat_ne_iff_ne.mpr hrelease
    have hthree : (opcodeField w).toNat ≠ 3 := BitVec.toNat_ne_iff_ne.mpr hcrc
    have hop : (opcodeField w).toNat = 0 ∨ 4 ≤ (opcodeField w).toNat := by omega
    exact iff_of_true ⟨_, rfl⟩ (.inr (hop.imp BitVec.eq_of_toNat_eq .inl))

/-- An exception ends a command with its code and its result. -/
theorem answered_raise (s : State) (c : Cause) :
    s.Answered (s.raise c) c.status (c.result s.draws) := ⟨rfl, rfl, rfl, rfl⟩

theorem decoded_of_requests {s : State} {r : Request} {rest : List Request}
    (hreq : s.requests = r :: rest) : s.decoded = decode r.cmd := by
  simp [State.decoded, State.request, hreq]

theorem step_of_decode_ok {s : State} {r : Request} {rest : List Request} {i : Instr}
    (hreq : s.requests = r :: rest) (hd : decode r.cmd = .ok i) : step s = exec i s := by
  simp [step, hreq, decoded_of_requests hreq, hd]

theorem step_of_decode_error {s : State} {r : Request} {rest : List Request} {e : Illegal}
    (hreq : s.requests = r :: rest) (hd : decode r.cmd = .error e) :
    step s = .next (s.raise (.illegalCommand s.request.cmd)) := by
  simp [step, hreq, decoded_of_requests hreq, hd, execIllegal]

theorem releasable_of_validHandle_eq_false {s : State} {h : Handle}
    (hv : s.validHandle h = false) : s.releasable h = false :=
  (Bool.or_eq_false_iff.mp hv).2

/-- Settles O6: an illegal word raises `IllegalCommand`, and `RELEASE` or `CRC` with a handle that
names no table raises `InvalidHandle`; an exception writes no slot. -/
theorem illegalWordsAnswerIllegalCommand : Obligations.IllegalWordsAnswerIllegalCommand := by
  refine ⟨exists_decode_eq_error_iff, fun s r rest e hreq hd => ?_,
    fun s r rest h hreq hd hv => ?_⟩
  · exact ⟨_, step_of_decode_error hreq hd, answered_raise s _, raise_slots s _⟩
  · obtain hrelease | hcrc := hd
    · have hstep : step s = .next (s.raise (.releaseInvalidHandle h)) :=
        (step_of_decode_ok hreq hrelease).trans
          (execRelease_invalid (releasable_of_validHandle_eq_false hv))
      exact ⟨_, _, hstep, answered_raise s (.releaseInvalidHandle h), raise_slots s _⟩
    · have hstep : step s = .next (s.raise (.crcInvalidHandle h)) :=
        (step_of_decode_ok hreq hcrc).trans (execCrc_invalid (tableOf_eq_none.mpr hv))
      exact ⟨_, _, hstep, answered_raise s (.crcInvalidHandle h), raise_slots s _⟩

end Sys2Proof.Machine
end

section
/-! The response by command and status: the settling of O52 (30_encoding.md rule R89). -/

namespace Sys2Proof.Machine

/-- Settles O52, by the cases of `step`: each way a command ends carries the response rule R89 gives
it. -/
theorem resultFollowsCommandAndStatus : Obligations.ResultFollowsCommandAndStatus := by
  intro s t hreq hstep
  obtain ⟨hidle, -⟩ | ⟨-, ⟨k, hd, halloc, rfl⟩ | ⟨hd, -, rfl⟩ | ⟨a, hd, hrel, rfl⟩ |
    ⟨a, hd, hrel, rfl⟩ | ⟨a, T, hd, htable, -, rfl⟩ | ⟨a, hd, htable, rfl⟩ | ⟨e, hd, rfl⟩⟩ :=
    step_cases hstep
  · exact absurd hidle hreq
  all_goals
    refine ⟨_, rfl, ?_⟩
    rw [hd]
  · exact .inl ⟨k, halloc, rfl⟩
  · exact .inr rfl
  · exact .inl ⟨hrel, rfl⟩
  · exact .inr ⟨hrel, rfl⟩
  · exact .inl ⟨T, htable, rfl⟩
  · exact .inr ⟨tableOf_eq_none.mp htable, rfl⟩
  · rfl

end Sys2Proof.Machine
end

section
/-! The loop of `BUILD` over all byte values, and the settling of O13 (40_table_builder.md rule
R112). -/

namespace Sys2Proof.Machine

/-- The loop of `BUILD` replaces one table by the table of `POLY`, whatever stood in it. -/
theorem buildLoop_slots (s : State) (k : Nat) : (buildLoop k s).slots =
    s.slots.modify k (fun sl => { sl with table := buildTable s.work.poly }) := by
  obtain ⟨hslots, -⟩ := foldl_buildEntry k allBytes s
  simp only [buildLoop, hslots, fillTable_allBytes]

/-- Settles O13: the loop writes the entry of every byte value, so it fills the whole table. -/
theorem buildLoopStoresTheTable : Obligations.BuildLoopStoresTheTable :=
  ⟨⟨nodup_allBytes, length_allBytes, mem_allBytes⟩, lookup_buildTable, buildLoop_slots⟩

end Sys2Proof.Machine
end

section
/-! The search of `alloc` in terms of the valid bits, and the settling of O26 (40_table_builder.md
rule R115). -/

namespace Sys2Proof.Machine

theorem validBit_of_lt {s : State} {k : Nat} (hk : k < s.slots.length) :
    s.validBit k = s.slots[k].valid := by
  rw [State.validBit, List.getElem?_eq_getElem hk, Option.any_some]

/-- `alloc` finds the first slot that is not valid. -/
theorem alloc_eq_some_iff {s : State} {k : Nat} : s.alloc = some k ↔
    k < s.nslots ∧ s.validBit k = false ∧ ∀ j < k, s.validBit j = true := by
  rw [State.alloc, List.findIdx?_eq_some_iff_getElem, ← exists_prop]
  refine exists_congr fun hk => and_congr ?_ (forall₂_congr fun j hj => ?_)
  · simp [validBit_of_lt hk]
  · simp [validBit_of_lt (hj.trans hk)]

/-- `alloc` finds nothing when no slot is free. -/
theorem alloc_eq_none_iff {s : State} : s.alloc = none ↔ ∀ k < s.nslots, s.validBit k = true := by
  rw [State.alloc, List.findIdx?_eq_none_iff, List.forall_mem_iff_getElem]
  exact forall₂_congr fun k hk => by simp [validBit_of_lt hk]

/-- Settles O26: `alloc` is the first index at which the valid bit is clear. -/
theorem allocationTakesTheLowestFreeSlot : Obligations.AllocationTakesTheLowestFreeSlot :=
  fun _ => ⟨fun _ => alloc_eq_some_iff, alloc_eq_none_iff⟩

end Sys2Proof.Machine
end

section
/-! `CRC` of no data, and the settling of O38 (41_checksum_accumulator.md rule R136). -/

namespace Sys2Proof.Machine

@[simp] theorem complement_complement (a : Word) : complement (complement a) = a := by
  simp [complement]

/-- The pre- and the post-complement cancel when no byte comes between them. -/
@[simp] theorem crc32_nil (T : Table) (S : Word) : crc32 T [] S = S :=
  complement_complement S

/-- `finish` ends a command with the status and the result it is given. -/
theorem answered_finish (s : State) (st : Status) (r : Word) :
    s.Answered (s.finish st r) st r := ⟨rfl, rfl, rfl, rfl⟩

/-- `CRC` of no data needs no delivered byte, so it never waits. -/
theorem execCrc_of_arg1_eq_zero {s : State} {h : Handle} {T : Table} (hlen : s.arg1 = 0)
    (htable : s.tableOf h = some T) : execCrc h s = .next (s.finish .ok s.arg0) := by
  have hzero : s.arg1.toNat = 0 := congrArg BitVec.toNat hlen
  rw [execCrc_eq htable, hzero, if_pos (Nat.zero_le _), List.take_zero, crc32_nil]

/-- Settles O38: with no data the complements cancel and leave the seed; the handle is judged before
the length. -/
theorem zeroLengthCrcReturnsTheSeed : Obligations.ZeroLengthCrcReturnsTheSeed := by
  refine fun s h hlen => ⟨fun hv => ?_, fun hv => ?_⟩
  · obtain ⟨T, htable⟩ := tableOf_of_valid hv
    exact ⟨_, execCrc_of_arg1_eq_zero hlen htable, answered_finish s .ok s.arg0⟩
  · exact ⟨_, _, execCrc_invalid (tableOf_eq_none.mpr hv), answered_raise s (.crcInvalidHandle h)⟩

end Sys2Proof.Machine
end

section
/-! The constant handles and the tables they name, and the settling of O9 (42_constant_tables.md rule
R150). -/

namespace Sys2Proof.Machine

@[simp] theorem isConst_handleOfConst (c : Fin 4) : isConst (handleOfConst c) = true := by
  revert c
  decide

@[simp] theorem constOf_handleOfConst (c : Fin 4) : constOf (handleOfConst c) = c := by
  revert c
  decide

/-- A constant handle names its table of `ROM` in every state. -/
@[simp] theorem tableOf_handleOfConst (s : State) (c : Fin 4) :
    s.tableOf (handleOfConst c) = some (rom c) := by
  rw [State.tableOf, if_pos (isConst_handleOfConst c), constOf_handleOfConst]

theorem lookup_rom (c : Fin 4) (i : Byte) : lookup (rom c) i = entry polyC[c] i :=
  lookup_buildTable _ i

/-- A constant handle reads the entries of its polynomial in every state. -/
theorem tableRead_handleOfConst (s : State) (c : Fin 4) (i : Byte) :
    s.tableRead (handleOfConst c) i = some (entry polyC[c] i) := by
  rw [State.tableRead, tableOf_handleOfConst, Option.map_some, lookup_rom]

/-- Settles O9: the four handles are those of the four constant tables. -/
theorem constantHandlesNameTheirTables : Obligations.ConstantHandlesNameTheirTables :=
  fun s i => ⟨tableRead_handleOfConst s 0 i, tableRead_handleOfConst s 1 i,
    tableRead_handleOfConst s 2 i, tableRead_handleOfConst s 3 i⟩

end Sys2Proof.Machine
end

section
/-! The handle `BUILD` gives out and the table it names, and the settling of O41
(42_constant_tables.md rule R151). -/

namespace Sys2Proof.Machine

theorem handleOfSlot_toNat {k : Nat} (hk : k < 128) : (handleOfSlot k).toNat = 128 + k :=
  Nat.mod_eq_of_lt (by omega)

theorem slotOf_handleOfSlot {k : Nat} (hk : k < 128) : slotOf (handleOfSlot k) = k := by
  simp only [slotOf, BitVec.extractLsb'_toNat, handleOfSlot_toNat hk, Nat.shiftRight_zero]
  omega

theorem isConst_handleOfSlot {k : Nat} (hk : k < 128) : isConst (handleOfSlot k) = false := by
  simp only [isConst, handleOfSlot_toNat hk, Bool.and_eq_false_iff, decide_eq_false_iff_not]
  omega

theorem isDyn_handleOfSlot {k n : Nat} (hk : k < 128) :
    isDyn n (handleOfSlot k) = decide (k < n) := by
  have hbit : (handleOfSlot k).getLsbD 7 = true := by
    have hsmall : k.testBit 7 = false := Nat.testBit_lt_two_pow hk
    rw [BitVec.getLsbD, handleOfSlot_toNat hk]
    exact (Nat.testBit_two_pow_add_eq k 7).trans (congrArg not hsmall)
  rw [isDyn, hbit, slotOf_handleOfSlot hk, Bool.true_and]

/-- The handle of a valid slot names the table in that slot (10_state.md rule R26). -/
theorem tableOf_handleOfSlot {s : State} {k : Nat} {sl : Slot} (hk : k < 128)
    (hsl : s.slots[k]? = some sl) (hvalid : sl.valid = true) :
    s.tableOf (handleOfSlot k) = some sl.table := by
  have hbit : s.validBit k = true := validBit_eq_true.mpr ⟨sl, hsl, hvalid⟩
  have hlive : s.live (handleOfSlot k) = true := by
    rw [State.live, isDyn_handleOfSlot hk, slotOf_handleOfSlot hk, hbit,
      decide_eq_true (lt_nslots_of_validBit hbit), Bool.true_and]
  simp [State.tableOf, isConst_handleOfSlot hk, hlive, slotOf_handleOfSlot hk, hsl]

theorem afterBuild_getElem?_self {s : State} {k : Nat} (hk : k < s.nslots) :
    (s.afterBuild k).slots[k]? = some { valid := true, table := buildTable s.arg0 } := by
  have hslot : s.slots[k]? = some s.slots[k] := List.getElem?_eq_getElem hk
  simp [State.afterBuild, hslot]

/-- After `BUILD` the new handle names the table of the polynomial. -/
theorem tableOf_afterBuild {s : State} {k : Nat} (hn : s.nslots ≤ 128)
    (halloc : s.alloc = some k) :
    (s.afterBuild k).tableOf (handleOfSlot k) = some (buildTable s.arg0) := by
  obtain ⟨hk, -, -⟩ := alloc_eq_some_iff.mp halloc
  exact tableOf_handleOfSlot (hk.trans_le hn) (afterBuild_getElem?_self hk) rfl

/-- `CRC` with a valid handle and its data delivered ends in a state that depends on the handle
through its table only. -/
theorem execCrc_of_delivered {s : State} {h : Handle} {T : Table} (htable : s.tableOf h = some T)
    (hdata : s.arg1.toNat ≤ s.data.length) :
    execCrc h s = .next (s.finish .ok (crc32 T (s.data.take s.arg1.toNat) s.arg0)) := by
  rw [execCrc_eq htable, if_pos hdata]

/-- Settles O41: both handles name the table of the one polynomial, so `CRC` with either ends in the
same state. -/
theorem builtAndConstantTablesAgree : Obligations.BuiltAndConstantTablesAgree := by
  intro s c k hn halloc hpoly
  have hbuilt : (s.afterBuild k).tableOf (handleOfSlot k) = some (rom c) := by
    rw [tableOf_afterBuild hn halloc, hpoly, rom]
  have hconst := tableOf_handleOfConst (s.afterBuild k) c
  refine ⟨s.afterBuild k, execBuild_some halloc, hbuilt.trans hconst.symm, fun hdata => ?_⟩
  exact ⟨_, _, execCrc_of_delivered hbuilt hdata, execCrc_of_delivered hconst hdata, rfl⟩

end Sys2Proof.Machine
end

section
/-! Handles that name no table: `NULL`, and a handle released and not rebuilt. The settling of O30
(70_reset_and_hazards.md rule R235) and of O34 (rule R234). -/

namespace Sys2Proof.Machine

/-- `RELEASE` of a handle that names no table raises `InvalidHandle`. -/
theorem exec_release_of_validHandle_eq_false {s : State} {h : Handle}
    (hv : s.validHandle h = false) :
    exec (.release h) s = .next (s.raise (.releaseInvalidHandle h)) :=
  execRelease_invalid (releasable_of_validHandle_eq_false hv)

/-- `CRC` with a handle that names no table raises `InvalidHandle`. -/
theorem exec_crc_of_validHandle_eq_false {s : State} {h : Handle}
    (hv : s.validHandle h = false) :
    exec (.crc h) s = .next (s.raise (.crcInvalidHandle h)) :=
  execCrc_invalid (tableOf_eq_none.mpr hv)

/-- `NULL` is neither a constant handle nor, its bit 7 being clear, a dynamic one. -/
theorem validHandle_nullHandle (s : State) : s.validHandle nullHandle = false := rfl

/-- A `BUILD` whose status is not `OK` found no free slot, so its result is `NULL`. -/
theorem execBuild_result_of_status_ne_ok {s t : State} {p : Response}
    (hexec : execBuild s = .next t) (hp : t.response = some p)
    (hstatus : p.status ≠ Status.ok.code) : p.result = zext32 nullHandle := by
  cases halloc : s.alloc with
  | none =>
    rw [execBuild_none halloc] at hexec
    cases hexec
    cases hp
    rfl
  | some k =>
    rw [execBuild_some halloc] at hexec
    cases hexec
    cases hp
    exact absurd rfl hstatus

/-- Settles O30: only a `BUILD` without a free slot fails, and its result is `NULL`, which names no
table in any state. -/
theorem failedBuildLeavesTheNullHandle : Obligations.FailedBuildLeavesTheNullHandle := by
  refine ⟨fun s t p => execBuild_result_of_status_ne_ok, fun u => ?_⟩
  have hv := validHandle_nullHandle u
  exact ⟨_, _, _, exec_release_of_validHandle_eq_false hv, answered_raise u _,
    exec_crc_of_validHandle_eq_false hv, answered_raise u (.crcInvalidHandle nullHandle),
    raise_slots u _, raise_slots u _⟩

/-- The constant handles lie below `0x80`, the dynamic ones have bit 7 set. -/
theorem isConst_eq_false_of_isDyn {n : Nat} {h : Handle} (hdyn : isDyn n h = true) :
    isConst h = false := by
  have hbit : h.getLsbD 7 = true := (Bool.and_eq_true_iff.mp hdyn).1
  have hge : 2 ^ 7 ≤ h.toNat := Nat.ge_two_pow_of_testBit hbit
  have hnot : ¬ h.toNat ≤ 0x04 := by omega
  rw [isConst, decide_eq_false hnot, Bool.and_false]

theorem isConst_eq_false_of_releasable {s : State} {h : Handle} (hr : s.releasable h = true) :
    isConst h = false :=
  isConst_eq_false_of_isDyn (Bool.and_eq_true_iff.mp hr).1

/-- A handle that is not constant names no table while its slot is free. -/
theorem validHandle_eq_false_of_validBit {s : State} {h : Handle} (hconst : isConst h = false)
    (hbit : s.validBit (slotOf h) = false) : s.validHandle h = false := by
  rw [State.validHandle, hconst, State.live, hbit, Bool.and_false, Bool.false_or]

/-- Settles O34: the `RELEASE` cleared the bit of the handle's slot, and while that bit is clear the
handle, which is not constant, names no table. -/
theorem useAfterReleaseIsDetected : Obligations.UseAfterReleaseIsDetected := by
  intro s t u h hr hexec _ hbit
  have ht : t = s.afterRelease h := by
    have hok : exec (.release h) s = .next (s.afterRelease h) := execRelease_ok hr
    exact Host.Outcome.next.inj (hexec.symm.trans hok)
  have hfree : u.validBit (slotOf h) = false := by
    rw [hbit, ht, validBit_afterRelease, if_pos rfl]
  have hv : u.validHandle h = false :=
    validHandle_eq_false_of_validBit (isConst_eq_false_of_releasable hr) hfree
  exact ⟨_, _, _, exec_release_of_validHandle_eq_false hv, answered_raise u _, raise_slots u _,
    exec_crc_of_validHandle_eq_false hv, answered_raise u (.crcInvalidHandle h), raise_slots u _⟩

end Sys2Proof.Machine
end

section
/-! What commands can see: two cores that agree on it answer alike. The settling of O57 (10_state.md
rules R20, R29 and R33). -/

namespace Sys2Proof.Machine

/-- Two cores agree on all that commands can see: the valid slots and their tables (10_state.md rule
R20), `LENW`, and the requests. -/
def State.Agree (s s' : State) : Prop :=
  s.arch = s'.arch ∧ s.lenw = s'.lenw ∧ s.requests = s'.requests

/-- Two ends of a command that show the host no difference: the cores agree again and the statuses
are equal, and so are the responses, unless `RESULT` is free; or both wait for data. -/
def SameEnd (free : Prop) (o o' : Host.Outcome State Fault Refusal) : Prop :=
  (∃ t t', o = .next t ∧ o' = .next t' ∧ t.Agree t' ∧
    t.response.map Response.status = t'.response.map Response.status ∧
    (t.response = t'.response ∨ free)) ∨
  (o = .fault .dataUnderrun ∧ o' = .fault .dataUnderrun)

/-- Two commands that end with one response, in cores that agree again, show no difference. -/
theorem SameEnd.of_response_eq (free : Prop) {t t' : State} (hagree : t.Agree t')
    (hresponse : t.response = t'.response) : SameEnd free (.next t) (.next t') :=
  .inl ⟨t, t', rfl, rfl, hagree, congrArg _ hresponse, .inl hresponse⟩

/-! What the predicates of a state read of its slots is their visible part. -/

@[simp] theorem visible_isSome (sl : Slot) : sl.visible.isSome = sl.valid := by
  cases h : sl.valid <;> simp [Slot.visible, h]

theorem arch_getElem? (s : State) (k : Nat) : s.arch[k]? = (s.slots[k]?).map Slot.visible :=
  List.getElem?_map

theorem nslots_eq_length_arch (s : State) : s.nslots = s.arch.length := List.length_map _ |>.symm

theorem validBit_eq_arch (s : State) (k : Nat) :
    s.validBit k = (s.arch[k]?).any Option.isSome := by
  rw [State.validBit, arch_getElem?]
  cases s.slots[k]? <;> simp

theorem alloc_eq_arch (s : State) : s.alloc = s.arch.findIdx? (fun o => !o.isSome) := by
  rw [State.alloc, State.arch, List.findIdx?_map]
  congr 1
  funext sl
  simp

/-- A live handle names the table of its slot, which is valid. -/
theorem tableOf_of_live {s : State} {h : Handle} (hl : s.live h = true) :
    ∃ sl, s.slots[slotOf h]? = some sl ∧ sl.valid = true ∧ s.tableOf h = some sl.table := by
  obtain ⟨hdyn, hbit⟩ := Bool.and_eq_true_iff.mp hl
  obtain ⟨sl, hsl, hvalid⟩ := validBit_eq_true.mp hbit
  refine ⟨sl, hsl, hvalid, ?_⟩
  simp [State.tableOf, isConst_eq_false_of_isDyn hdyn, hl, hsl]

theorem tableOf_of_isConst (s : State) {h : Handle} (hc : isConst h = true) :
    s.tableOf h = some (rom (constOf h)) := if_pos hc

/-- A live handle names what stands in its slot for commands to see. -/
theorem tableOf_eq_arch_of_live {s : State} {h : Handle} (hl : s.live h = true) :
    s.tableOf h = (s.arch[slotOf h]?).join := by
  obtain ⟨sl, hsl, hvalid, htable⟩ := tableOf_of_live hl
  simp [htable, arch_getElem?, hsl, Slot.visible, hvalid]

section
variable {s s' : State} (hagree : s.Agree s')
include hagree

theorem State.Agree.arch_eq : s.arch = s'.arch := hagree.1

theorem State.Agree.lenw_eq : s.lenw = s'.lenw := hagree.2.1

theorem State.Agree.requests_eq : s.requests = s'.requests := hagree.2.2

theorem State.Agree.tail_requests : s.requests.tail = s'.requests.tail :=
  congrArg List.tail hagree.requests_eq

theorem State.Agree.live (h : Handle) : s.live h = s'.live h := by
  simp only [State.live, nslots_eq_length_arch, validBit_eq_arch, hagree.arch_eq]

theorem State.Agree.alloc : s.alloc = s'.alloc := by
  rw [alloc_eq_arch, alloc_eq_arch, hagree.arch_eq]

theorem State.Agree.tableOf (h : Handle) : s.tableOf h = s'.tableOf h := by
  cases hc : isConst h with
  | true => rw [tableOf_of_isConst s hc, tableOf_of_isConst s' hc]
  | false =>
    cases hl : s.live h with
    | true =>
      rw [tableOf_eq_arch_of_live hl, tableOf_eq_arch_of_live (hagree.live h ▸ hl), hagree.arch_eq]
    | false =>
      have hl' : s'.live h = false := hagree.live h ▸ hl
      rw [tableOf_eq_none.mpr (by rw [State.validHandle, hc, hl]; rfl),
        tableOf_eq_none.mpr (by rw [State.validHandle, hc, hl']; rfl)]

/-! Ends of commands that keep two agreeing cores in agreement. -/

theorem State.Agree.finish_sameEnd (free : Prop) (st : Status) (r : Word) :
    SameEnd free (.next (s.finish st r)) (.next (s'.finish st r)) :=
  .of_response_eq free ⟨hagree.arch_eq, hagree.lenw_eq, hagree.tail_requests⟩ rfl

/-- An exception shows no difference beyond its result, which may be a free value. -/
theorem State.Agree.raise_sameEnd {free : Prop} {c : Cause}
    (hres : c.result s.draws = c.result s'.draws ∨ free) :
    SameEnd free (.next (s.raise c)) (.next (s'.raise c)) := by
  refine .inl ⟨_, _, rfl, rfl, ⟨hagree.arch_eq, hagree.lenw_eq, hagree.tail_requests⟩, rfl,
    hres.imp_left fun h => ?_⟩
  rw [raise_response, raise_response, h]

end

/-- The map of a list with one element replaced. -/
theorem map_modify_const {α β : Type} (f : α → β) (l : List α) (k : Nat) (new : α) :
    (l.modify k (fun _ => new)).map f = (l.map f).modify k (fun _ => f new) := by
  rw [← List.set_eq_modify, List.map_set, List.set_eq_modify]

theorem arch_afterBuild (s : State) (k : Nat) :
    (s.afterBuild k).arch = s.arch.modify k (fun _ => some (buildTable s.arg0)) :=
  map_modify_const ..

theorem arch_afterRelease (s : State) (h : Handle) :
    (s.afterRelease h).arch = s.arch.modify (slotOf h) (fun _ => none) :=
  map_modify_const ..

section
variable {s s' : State} (hagree : s.Agree s')
include hagree

theorem State.Agree.execBuild_sameEnd (free : Prop) :
    SameEnd free (execBuild s) (execBuild s') := by
  cases halloc : s.alloc with
  | none =>
    rw [execBuild_none halloc, execBuild_none (hagree.alloc ▸ halloc)]
    exact hagree.raise_sameEnd (.inl rfl)
  | some k =>
    rw [execBuild_some halloc, execBuild_some (hagree.alloc ▸ halloc)]
    refine .of_response_eq free ⟨?_, hagree.lenw_eq, hagree.tail_requests⟩ rfl
    rw [arch_afterBuild, arch_afterBuild, hagree.arch_eq, arg0_congr hagree.requests_eq]

theorem State.Agree.execRelease_sameEnd (free : Prop) (h : Handle) :
    SameEnd free (execRelease h s) (execRelease h s') := by
  cases hr : s.releasable h with
  | false =>
    rw [execRelease_invalid hr, execRelease_invalid ((hagree.live h).symm.trans hr)]
    exact hagree.raise_sameEnd (.inl rfl)
  | true =>
    rw [execRelease_ok hr, execRelease_ok ((hagree.live h).symm.trans hr)]
    refine .of_response_eq free ⟨?_, hagree.lenw_eq, hagree.tail_requests⟩ rfl
    rw [arch_afterRelease, arch_afterRelease, hagree.arch_eq]

theorem State.Agree.execCrc_sameEnd (h : Handle) :
    SameEnd (s.validHandle h = false) (execCrc h s) (execCrc h s') := by
  cases htable : s.tableOf h with
  | none =>
    rw [execCrc_invalid htable, execCrc_invalid (hagree.tableOf h ▸ htable)]
    exact hagree.raise_sameEnd (.inr (tableOf_eq_none.mp htable))
  | some T =>
    rw [execCrc_eq htable, execCrc_eq (hagree.tableOf h ▸ htable),
      ← arg1_congr hagree.requests_eq hagree.lenw_eq, ← data_congr hagree.requests_eq,
      ← arg0_congr hagree.requests_eq]
    split_ifs
    · exact hagree.finish_sameEnd _ _ _
    · exact .inr ⟨rfl, rfl⟩

/-- A command ends alike in two cores that agree; only the `RESULT` of a `CRC` with an invalid
handle is free. -/
theorem State.Agree.exec_sameEnd (i : Instr) :
    SameEnd (∃ h, i = .crc h ∧ s.validHandle h = false) (exec i s) (exec i s') := by
  cases i with
  | build => exact hagree.execBuild_sameEnd _
  | release h => exact hagree.execRelease_sameEnd _ h
  | crc h => simpa [exec] using hagree.execCrc_sameEnd h

end

/-! A step as a function of the word at the interface. -/

theorem step_of_decoded_ok {s : State} {i : Instr} (hreq : s.requests ≠ [])
    (hd : s.decoded = .ok i) : step s = exec i s := by
  obtain ⟨r, rest, hcons⟩ := List.exists_cons_of_ne_nil hreq
  exact step_of_decode_ok hcons (decoded_of_requests hcons ▸ hd)

theorem step_of_decoded_error {s : State} {e : Illegal} (hreq : s.requests ≠ [])
    (hd : s.decoded = .error e) : step s = .next (s.raise (.illegalCommand s.request.cmd)) := by
  obtain ⟨r, rest, hcons⟩ := List.exists_cons_of_ne_nil hreq
  exact step_of_decode_error hcons (decoded_of_requests hcons ▸ hd)

theorem step_of_requests_eq_nil {s : State} (hreq : s.requests = []) : step s = .next s := by
  simp [step, hreq]

/-- A step that answers a request ends alike in two cores that agree. -/
theorem State.Agree.step_sameEnd {s s' : State} (hagree : s.Agree s') (hreq : s.requests ≠ []) :
    SameEnd (∃ h, s.decoded = .ok (.crc h) ∧ s.validHandle h = false) (step s) (step s') := by
  have hreq' : s'.requests ≠ [] := hagree.requests_eq ▸ hreq
  have hdecoded := decoded_congr hagree.requests_eq
  cases hd : s.decoded with
  | error e =>
    rw [step_of_decoded_error hreq hd, step_of_decoded_error hreq' (hdecoded ▸ hd),
      ← request_congr hagree.requests_eq]
    exact hagree.raise_sameEnd (.inl rfl)
  | ok i =>
    rw [step_of_decoded_ok hreq hd, step_of_decoded_ok hreq' (hdecoded ▸ hd)]
    simpa using hagree.exec_sameEnd i

/-- Settles O57: agreement on what commands can see is kept by every way a command can end, and it
fixes the response but for a free `RESULT`. -/
theorem hiddenStateHasNoEffect : Obligations.HiddenStateHasNoEffect := by
  intro s s' harch hlenw hrequests
  have hagree : s.Agree s' := ⟨harch, hlenw, hrequests⟩
  by_cases hreq : s.requests = []
  · exact .inl ⟨s, s', step_of_requests_eq_nil hreq, step_of_requests_eq_nil (hrequests ▸ hreq),
      harch, hlenw, hrequests, fun hne => absurd hreq hne⟩
  · refine (hagree.step_sameEnd hreq).imp_left ?_
    rintro ⟨t, t', ht, ht', hnext, hend⟩
    exact ⟨t, t', ht, ht', hnext.arch_eq, hnext.lenw_eq, hnext.requests_eq, fun _ => hend⟩

end Sys2Proof.Machine
end

section
/-! How a step that answers a request ends, and what it does to the slots. The settling of O46
(20_memory.md rule R62), of O49 (10_state.md rule R21) and of O51 (60_exceptions.md rule R197). -/

namespace Sys2Proof.Machine

theorem answered_afterBuild (s : State) (k : Nat) :
    s.Answered (s.afterBuild k) .ok (zext32 (handleOfSlot k)) :=
  ⟨rfl, rfl, List.length_modify .., rfl⟩

theorem answered_afterRelease (s : State) (h : Handle) :
    s.Answered (s.afterRelease h) .ok 0 :=
  ⟨rfl, rfl, List.length_modify .., rfl⟩

/-- Every step that answers a request ends a command, whatever its status, and frees the working
registers. -/
theorem step_answered {s t : State} (hstep : step s = .next t) (hreq : s.requests ≠ []) :
    ∃ st r n, s.Answered t st r ∧ t.work = freeWork s.lenw n := by
  obtain ⟨hidle, -⟩ | ⟨-, ⟨k, -, -, rfl⟩ | ⟨-, -, rfl⟩ | ⟨a, -, -, rfl⟩ | ⟨a, -, -, rfl⟩ |
    ⟨a, T, -, -, -, rfl⟩ | ⟨a, -, -, rfl⟩ | ⟨e, -, rfl⟩⟩ := step_cases hstep
  · exact absurd hidle hreq
  · exact ⟨_, _, _, answered_afterBuild s k, rfl⟩
  · exact ⟨_, _, _, answered_raise s _, rfl⟩
  · exact ⟨_, _, _, answered_afterRelease s a, rfl⟩
  · exact ⟨_, _, _, answered_raise s _, rfl⟩
  · exact ⟨_, _, _, answered_finish s _ _, rfl⟩
  · exact ⟨_, _, _, answered_raise s _, rfl⟩
  · exact ⟨_, _, _, answered_raise s _, rfl⟩

/-- Everything a step can do to the slots: it keeps them all, or it is a `BUILD` or a `RELEASE` that
succeeds. -/
theorem step_slots_cases {s t : State} (hstep : step s = .next t) :
    t.slots = s.slots ∨ (∃ k, s.alloc = some k ∧ t = s.afterBuild k) ∨
      ∃ a, t = s.afterRelease a := by
  obtain ⟨-, rfl⟩ | ⟨-, ⟨k, -, halloc, rfl⟩ | ⟨-, -, rfl⟩ | ⟨a, -, -, rfl⟩ | ⟨a, -, -, rfl⟩ |
    ⟨a, T, -, -, -, rfl⟩ | ⟨a, -, -, rfl⟩ | ⟨e, -, rfl⟩⟩ := step_cases hstep
  · exact .inl rfl
  · exact .inr (.inl ⟨k, halloc, rfl⟩)
  · exact .inl (raise_slots s _)
  · exact .inr (.inr ⟨a, rfl⟩)
  · exact .inl (raise_slots s _)
  · exact .inl (finish_slots s _ _)
  · exact .inl (raise_slots s _)
  · exact .inl (raise_slots s _)

/-- Settles O46: the end of a command consumes the request it answers and keeps the parameters. -/
theorem requestsAreAnsweredInOrder : Obligations.RequestsAreAnsweredInOrder := by
  intro s t hstep hreq
  obtain ⟨st, r, n, ⟨hresponse, hrequests, hnslots, hlenw⟩, -⟩ := step_answered hstep hreq
  exact ⟨hrequests, hresponse ▸ rfl, by rw [State.config, State.config, hnslots, hlenw]⟩

theorem afterBuild_getElem?_of_ne (s : State) {j k : Nat} (hne : j ≠ k) :
    (s.afterBuild k).slots[j]? = s.slots[j]? := List.getElem?_modify_ne _ _ hne.symm

theorem afterRelease_getElem?_of_ne (s : State) {h : Handle} {j : Nat} (hne : j ≠ slotOf h) :
    (s.afterRelease h).slots[j]? = s.slots[j]? := List.getElem?_modify_ne _ _ hne.symm

theorem afterRelease_getElem?_self {s : State} {h : Handle} {sl : Slot}
    (hsl : s.slots[slotOf h]? = some sl) :
    (s.afterRelease h).slots[slotOf h]? =
      some { valid := false, table := freeTable s.draws } := by
  simp [State.afterRelease, hsl]

/-- Settles O49: `BUILD` fills a slot that was not valid, and `RELEASE` makes its slot invalid. -/
theorem validTablesAreImmutable : Obligations.ValidTablesAreImmutable := by
  intro s t k sl hstep hsl hvalid
  obtain hsame | ⟨k', halloc, rfl⟩ | ⟨a, rfl⟩ := step_slots_cases hstep
  · exact .inl (hsame ▸ hsl)
  · obtain ⟨-, hfree, -⟩ := alloc_eq_some_iff.mp halloc
    have hne : k ≠ k' := by
      rintro rfl
      simp [validBit_eq_true.mpr ⟨sl, hsl, hvalid⟩] at hfree
    exact .inl ((afterBuild_getElem?_of_ne s hne).trans hsl)
  · by_cases hk : k = slotOf a
    · exact .inr ⟨_, hk ▸ afterRelease_getElem?_self (hk ▸ hsl), rfl⟩
    · exact .inl ((afterRelease_getElem?_of_ne s hk).trans hsl)

/-- Settles O51: the two ends that write a slot answer `OK`. -/
theorem exceptionsLeaveEverySlotAlone : Obligations.ExceptionsLeaveEverySlotAlone := by
  intro s t p _ hstep hp hstatus
  obtain hsame | ⟨k, -, rfl⟩ | ⟨a, rfl⟩ := step_slots_cases hstep
  · exact hsame
  all_goals
    cases hp
    exact absurd rfl hstatus

end Sys2Proof.Machine
end

section
/-! The invariant of a core: every end of a command keeps it. The settling of O53 (10_state.md rule
R24). -/

namespace Sys2Proof.Machine

theorem toLen_toNat_lt (lenw : Nat) (v : LenWord) : (toLen lenw v).toNat < 2 ^ lenw :=
  (Nat.mod_le _ _).trans_lt (Nat.mod_lt _ (Nat.two_pow_pos lenw))

theorem Status.code_toNat_le (st : Status) : st.code.toNat ≤ 3 := by
  cases st <;> decide

theorem built_buildTable (P : Word) : Slot.Built { valid := true, table := buildTable P } :=
  fun _ => ⟨P, lookup_buildTable P⟩

theorem built_of_valid_eq_false {sl : Slot} (h : sl.valid = false) : sl.Built :=
  fun hvalid => absurd (h.symm.trans hvalid) Bool.false_ne_true

/-- A property of every slot is kept when one slot is replaced by another that has it. -/
theorem forall_mem_modify_const {p : Slot → Prop} {slots : List Slot} {new : Slot}
    (hslots : ∀ sl ∈ slots, p sl) (hnew : p new) (k : Nat) :
    ∀ sl ∈ slots.modify k (fun _ => new), p sl := by
  intro sl hsl
  rw [← List.set_eq_modify] at hsl
  obtain hold | rfl := List.mem_or_eq_of_mem_set hsl
  · exact hslots sl hold
  · exact hnew

/-- A step keeps the slots built: `BUILD` writes a built table, `RELEASE` an invalid slot. -/
theorem step_keeps_built {s t : State} (hstep : step s = .next t)
    (hbuilt : ∀ sl ∈ s.slots, sl.Built) : ∀ sl ∈ t.slots, sl.Built := by
  obtain hsame | ⟨k, -, rfl⟩ | ⟨a, rfl⟩ := step_slots_cases hstep
  · rwa [hsame]
  · exact forall_mem_modify_const hbuilt (built_buildTable s.arg0) k
  · exact forall_mem_modify_const hbuilt (built_of_valid_eq_false rfl) (slotOf a)

/-- Settles O53: the slots stay built, and the end of a command leaves the other registers in their
ranges. -/
theorem stepKeepsTheInvariant : Obligations.StepKeepsTheInvariant := by
  intro s t hinv hstep
  by_cases hreq : s.requests = []
  · rw [step_of_requests_eq_nil hreq] at hstep
    cases hstep
    exact hinv
  · obtain ⟨st, r, n, ⟨hresponse, -, hnslots, hlenw⟩, hwork⟩ := step_answered hstep hreq
    refine ⟨?_, step_keeps_built hstep hinv.built, ?_, fun p hp => ?_⟩
    · rw [State.config, hnslots, hlenw]
      exact hinv.config
    · rw [hwork, hlenw]
      exact toLen_toNat_lt s.lenw _
    · rw [hresponse] at hp
      cases hp
      exact st.code_toNat_le

end Sys2Proof.Machine
end

section
/-! The state after reset, at power-on and by a reset event. The settling of O54 and O55
(10_state.md rule R34) and of O56 (70_reset_and_hazards.md rule R231). -/

namespace Sys2Proof.Machine

@[simp] theorem length_freeSlots (m n : Nat) : (freeSlots m n).length = m := by
  induction m generalizing n with
  | zero => rfl
  | succ m ih => exact congrArg (· + 1) (ih (n + 256))

theorem valid_of_mem_freeSlots {m n : Nat} {sl : Slot} (h : sl ∈ freeSlots m n) :
    sl.valid = false := by
  obtain ⟨j, hj⟩ := List.mem_iff_getElem?.mp h
  simpa [hj] using any_valid_freeSlots m n j

theorem visible_of_valid_eq_false {sl : Slot} (h : sl.valid = false) : sl.visible = none := by
  simp [Slot.visible, h]

/-- Nothing of the slots can be seen while none is valid. -/
theorem map_visible_of_not_valid {slots : List Slot} (h : ∀ sl ∈ slots, sl.valid = false) :
    slots.map Slot.visible = List.replicate slots.length none :=
  List.eq_replicate_iff.mpr ⟨List.length_map _, List.forall_mem_map.mpr fun sl hsl =>
    visible_of_valid_eq_false (h sl hsl)⟩

/-- With no slot valid the valid handles are the constant ones. -/
theorem validHandle_of_no_validBit {s : State} (hbits : ∀ k, s.validBit k = false) (h : Handle) :
    s.validHandle h = isConst h := by
  rw [State.validHandle, State.live, hbits, Bool.and_false, Bool.or_false]

theorem config_resetOf (c : Config) : (State.resetOf c).config = c := by
  simp [State.config, State.nslots, State.resetOf]

theorem config_onReset (s : State) : s.onReset.config = s.config := by
  simp [State.config, State.nslots, State.onReset]

theorem valid_of_mem_resetOf {c : Config} {sl : Slot} (h : sl ∈ (State.resetOf c).slots) :
    sl.valid = false := by
  rw [List.eq_of_mem_replicate h]
  rfl

theorem validBit_resetOf (c : Config) (k : Nat) : (State.resetOf c).validBit k = false := by
  rw [State.validBit, Option.any_eq_false]
  exact fun sl hsl => by simp [valid_of_mem_resetOf (List.mem_of_getElem? hsl)]

theorem inv_resetOf {c : Config} (hc : c.wf = true) : (State.resetOf c).Inv where
  config := (config_resetOf c).symm ▸ hc
  built _ hsl := built_of_valid_eq_false (valid_of_mem_resetOf hsl)
  len := Nat.two_pow_pos c.lenw
  status _ hp := by cases hp

theorem inv_onReset {s : State} (hinv : s.Inv) : s.onReset.Inv where
  config := (config_onReset s).symm ▸ hinv.config
  built _ hsl := built_of_valid_eq_false (valid_of_mem_freeSlots hsl)
  len := toLen_toNat_lt s.lenw _
  status _ hp := by cases hp

/-- Settles O54: after reset no slot is valid, so every slot is built. -/
theorem resetHasTheInvariant : Obligations.ResetHasTheInvariant :=
  ⟨inv_resetOf (by decide), fun _ => inv_resetOf, fun _ => inv_onReset⟩

/-- Settles O55: the slots after reset are invalid copies of one another. -/
theorem resetStateIsAsTheSpecSays : Obligations.ResetStateIsAsTheSpecSays :=
  ⟨rfl, fun c => ⟨config_resetOf c, rfl, rfl, validBit_resetOf c,
    validHandle_of_no_validBit (validBit_resetOf c), tableOf_handleOfConst _⟩⟩

/-- Settles O56: after a reset event as at power-on no slot is valid, and there are as many. -/
theorem resetEventDestroysEveryBuiltTable : Obligations.ResetEventDestroysEveryBuiltTable := by
  refine fun s => ⟨rfl, rfl, config_onReset s, validHandle_of_no_validBit (validBit_onReset s), ?_⟩
  have hevent : s.onReset.arch = List.replicate s.nslots none :=
    (map_visible_of_not_valid fun _ => valid_of_mem_freeSlots).trans
      (congrArg (List.replicate · none) (length_freeSlots ..))
  have hpower : (State.resetOf s.config).arch = List.replicate s.nslots none :=
    (map_visible_of_not_valid fun _ => valid_of_mem_resetOf).trans
      (congrArg (List.replicate · none) List.length_replicate)
  rw [hevent, hpower]

end Sys2Proof.Machine
end

section
/-! The remainder step as a linear map, and tables by their basis entries. The settling of O14 to
O18 (43_arithmetic_and_laws.md section 3). -/

namespace Sys2Proof.Machine

theorem rstep_of_lsb_set {P r : Word} (h : r.getLsbD 0 = true) : rstep P r = (r >>> 1) ^^^ P :=
  if_pos h

theorem rstep_of_lsb_clear {P r : Word} (h : r.getLsbD 0 = false) : rstep P r = r >>> 1 :=
  if_neg (Bool.eq_false_iff.mp h)

theorem rsteps_zero_steps (P r : Word) : rsteps P 0 r = r := rfl

theorem rsteps_succ (P : Word) (n : Nat) (r : Word) :
    rsteps P (n + 1) r = rsteps P n (rstep P r) := rfl

theorem rstep_eq_xor (P r : Word) :
    rstep P r = (r >>> 1) ^^^ (if r.getLsbD 0 then P else 0) := by
  cases h : r.getLsbD 0 with
  | true => exact rstep_of_lsb_set h
  | false => exact (rstep_of_lsb_clear h).trans BitVec.xor_zero.symm

theorem xor_xor_xor_comm (a b c d : Word) : (a ^^^ b) ^^^ (c ^^^ d) = (a ^^^ c) ^^^ (b ^^^ d) := by
  ac_rfl

theorem rstep_xor (P a b : Word) : rstep P (a ^^^ b) = rstep P a ^^^ rstep P b := by
  have hfeedback : (if (a ^^^ b).getLsbD 0 then P else 0) =
      (if a.getLsbD 0 then P else 0) ^^^ (if b.getLsbD 0 then P else 0) := by
    rw [BitVec.getLsbD_xor]
    cases a.getLsbD 0 <;> cases b.getLsbD 0 <;> simp
  rw [rstep_eq_xor, rstep_eq_xor, rstep_eq_xor, hfeedback, BitVec.ushiftRight_xor_distrib,
    xor_xor_xor_comm]

@[simp] theorem rstep_zero (P : Word) : rstep P 0 = 0 := rstep_of_lsb_clear rfl

/-- Settles O14: both the shift and the feedback of `P` are linear. -/
theorem remainderStepIsLinear : Obligations.RemainderStepIsLinear :=
  fun P a b => ⟨rstep_xor P a b, rstep_zero P⟩

theorem rsteps_xor (P : Word) (n : Nat) (a b : Word) :
    rsteps P n (a ^^^ b) = rsteps P n a ^^^ rsteps P n b := by
  induction n generalizing a b with
  | zero => rfl
  | succ n ih => rw [rsteps_succ, rstep_xor, ih, rsteps_succ, rsteps_succ]

@[simp] theorem rsteps_zero (P : Word) (n : Nat) : rsteps P n 0 = 0 := by
  induction n with
  | zero => rfl
  | succ n ih => rw [rsteps_succ, rstep_zero, ih]

theorem rsteps_add (P : Word) (m n : Nat) (r : Word) :
    rsteps P (m + n) r = rsteps P n (rsteps P m r) := by
  induction m generalizing r with
  | zero => rw [Nat.zero_add, rsteps_zero_steps]
  | succ m ih => rw [Nat.succ_add, rsteps_succ, ih, rsteps_succ]

/-- While the bits shifted out are zero, remainder steps are shifts. -/
theorem rsteps_of_low_bits_zero (P : Word) {n : Nat} {r : Word}
    (h : ∀ j < n, r.getLsbD j = false) : rsteps P n r = r >>> n := by
  induction n generalizing r with
  | zero => exact (BitVec.ushiftRight_zero r).symm
  | succ n ih =>
    have hstep : rstep P r = r >>> 1 := rstep_of_lsb_clear (h 0 n.succ_pos)
    have hlow : ∀ j < n, (r >>> 1).getLsbD j = false := fun j hj => by
      rw [BitVec.getLsbD_ushiftRight]
      exact h (1 + j) (by omega)
    rw [rsteps_succ, hstep, ih hlow, ← BitVec.shiftRight_add, Nat.add_comm]

theorem zext32_xor (x y : Byte) : zext32 (x ^^^ y) = zext32 x ^^^ zext32 y := BitVec.setWidth_xor

theorem zext32_twoPow {j : Nat} (hj : j < 8) : zext32 (1#8 <<< j) = 1#32 <<< j := by
  revert j
  decide

theorem entry_xor (P : Word) (x y : Byte) : entry P (x ^^^ y) = entry P x ^^^ entry P y := by
  rw [entry, zext32_xor, rsteps_xor, entry, entry]

theorem entry_zero (P : Word) : entry P 0 = 0 := rsteps_zero P 8

/-- The bit of a basis index reaches bit 0 after `j` steps, and the next step makes it `P`. -/
theorem entry_twoPow (P : Word) {j : Nat} (hj : j < 8) :
    entry P (1#8 <<< j) = rsteps P (7 - j) P := by
  have hone : rsteps P j (1#32 <<< j) = 1#32 := by
    rw [rsteps_of_low_bits_zero P fun i hi => by simp [hi]]
    revert j
    decide
  have hpoly : rstep P 1#32 = P := (rstep_of_lsb_set rfl).trans BitVec.zero_xor
  have hsplit : 8 = j + ((7 - j) + 1) := by omega
  rw [entry, zext32_twoPow hj, hsplit, rsteps_add, hone, rsteps_succ, hpoly]

/-- Settles O16: eight steps are `j` shifts, the step that gives `P`, and the rest. -/
theorem basisEntriesAreStepsOfThePolynomial : Obligations.BasisEntriesAreStepsOfThePolynomial :=
  fun P _ hj => entry_twoPow P hj

theorem entry_128 (P : Word) : entry P 128 = P := entry_twoPow P (j := 7) (by decide)

theorem lookup_buildTable_128 (P : Word) : lookup (buildTable P) 128 = P := by
  rw [lookup_buildTable, entry_128]

/-- Settles O17: entry 128 is the polynomial, so the table determines it. -/
theorem polynomialReadsBackFromItsTable : Obligations.PolynomialReadsBackFromItsTable := by
  refine fun P Q => ⟨lookup_buildTable_128 P, fun h => ?_, congrArg buildTable⟩
  rw [← lookup_buildTable_128 P, h, lookup_buildTable_128]

/-- A function of a byte that is linear over exclusive or. -/
def XorLinear (f : Byte → Word) : Prop := ∀ x y, f (x ^^^ y) = f x ^^^ f y

theorem XorLinear.map_zero {f : Byte → Word} (hf : XorLinear f) : f 0 = 0 := by
  have h := hf 0 0
  rwa [BitVec.xor_self, BitVec.xor_self] at h

/-- Two linear functions that agree at the powers of two are equal: the bits of the argument are
removed one by one, the highest first. -/
theorem XorLinear.ext {f g : Byte → Word} (hf : XorLinear f) (hg : XorLinear g)
    (hbasis : ∀ j < 8, f (1#8 <<< j) = g (1#8 <<< j)) (b : Byte) : f b = g b := by
  have hlow : ∀ n ≤ 8, ∀ b : Byte, (∀ j, n ≤ j → b.getLsbD j = false) → f b = g b := by
    intro n hn
    induction n with
    | zero =>
      intro b hb
      have hzero : b = 0 := BitVec.eq_of_getLsbD_eq fun j _ => by simpa using hb j j.zero_le
      rw [hzero, hf.map_zero, hg.map_zero]
    | succ n ih =>
      intro b hb
      cases hbit : b.getLsbD n with
      | false =>
        refine ih (by omega) b fun j hj => ?_
        obtain rfl | hlt := hj.eq_or_lt
        · exact hbit
        · exact hb j hlt
      | true =>
        have hrest : f (b ^^^ 1#8 <<< n) = g (b ^^^ 1#8 <<< n) := by
          refine ih (by omega) _ fun j hj => ?_
          rw [BitVec.getLsbD_xor, ← BitVec.twoPow_eq, BitVec.getLsbD_twoPow]
          obtain rfl | hlt := hj.eq_or_lt
          · simp [hbit, Nat.lt_of_succ_le hn]
          · simp [hb j hlt, hlt.ne]
        rw [hf, hg, hbasis n hn, BitVec.xor_left_inj] at hrest
        exact hrest
  exact hlow 8 le_rfl b fun j hj => BitVec.getLsbD_of_ge b j hj

/-- Settles O15: a table is linear, so its basis entries determine it. -/
theorem tableIsLinearInItsIndex : Obligations.TableIsLinearInItsIndex := by
  refine ⟨fun P x y => ⟨entry_xor P x y, entry_zero P⟩, fun P Q hbasis => table_ext fun i => ?_⟩
  rw [lookup_buildTable, lookup_buildTable]
  exact XorLinear.ext (entry_xor P) (entry_xor Q) hbasis i

/-- Without feedback remainder steps are shifts. -/
theorem rsteps_zero_poly (n : Nat) (r : Word) : rsteps 0 n r = r >>> n := by
  induction n generalizing r with
  | zero => exact (BitVec.ushiftRight_zero r).symm
  | succ n ih =>
    have hstep : rstep 0 r = r >>> 1 := by simp [rstep_eq_xor]
    rw [rsteps_succ, ih, hstep, ← BitVec.shiftRight_add, Nat.add_comm]

theorem zext32_ushiftRight_eight (b : Byte) : zext32 b >>> 8 = 0 := by
  rw [zext32, ← BitVec.setWidth_ushiftRight (by decide), BitVec.ushiftRight_eq_zero le_rfl]
  rfl

/-- The closed form of the table of `0xFFFFFFFF` (95_test_vectors.md V12). -/
def allOnesEntry (b : Byte) : Word :=
  (((b &&& 0x7F).setWidth 32 : Word) <<< 25) ^^^ (if b.getLsbD 7 then 0xFFFFFFFF else 0)

theorem allOnesEntry_xor : XorLinear allOnesEntry := by
  intro x y
  have hlow : (x ^^^ y) &&& 0x7F = (x &&& 0x7F) ^^^ (y &&& 0x7F) :=
    BitVec.eq_of_getLsbD_eq fun j _ => by simp [Bool.and_xor_distrib_right]
  have hhigh : (if (x ^^^ y).getLsbD 7 then 0xFFFFFFFF else (0 : Word)) =
      (if x.getLsbD 7 then 0xFFFFFFFF else 0) ^^^ (if y.getLsbD 7 then 0xFFFFFFFF else 0) := by
    rw [BitVec.getLsbD_xor]
    cases x.getLsbD 7 <;> cases y.getLsbD 7 <;> simp
  rw [allOnesEntry, hlow, hhigh, BitVec.setWidth_xor, BitVec.shiftLeft_xor_distrib, allOnesEntry,
    allOnesEntry, xor_xor_xor_comm]

/-- Settles O18: without feedback all eight bits are shifted out; for `0xFFFFFFFF` both sides are
linear, and the eight basis entries are compared. -/
theorem degenerateTablesHaveTheirClosedForms :
    Obligations.DegenerateTablesHaveTheirClosedForms := by
  refine fun b => ⟨(rsteps_zero_poly 8 _).trans (zext32_ushiftRight_eight b), ?_⟩
  exact XorLinear.ext (entry_xor 0xFFFFFFFF) allOnesEntry_xor (by decide) b

end Sys2Proof.Machine
end

section
/-! The checksum as a fold of linear steps. The settling of O19 to O25 (43_arithmetic_and_laws.md
section 4). -/

namespace Sys2Proof.Machine

/-- The index of an accumulator step is the low byte of the accumulator with the data byte in it. -/
theorem tableIndex_eq_setWidth (c : Word) (d : Byte) :
    tableIndex c d = (c ^^^ zext32 d).setWidth 8 := by
  rw [tableIndex, BitVec.setWidth_and]
  exact BitVec.and_allOnes

theorem xor_zext32_ushiftRight_eight (c : Word) (d : Byte) : (c ^^^ zext32 d) >>> 8 = c >>> 8 := by
  rw [BitVec.ushiftRight_xor_distrib, zext32_ushiftRight_eight]
  exact BitVec.xor_zero

/-- Settles O19: neither the index nor the shifted part sees where the byte came in. -/
theorem dataByteEntersThroughTheLowByte : Obligations.DataByteEntersThroughTheLowByte := by
  intro T c d
  have hzero : (c ^^^ zext32 d) ^^^ zext32 0 = c ^^^ zext32 d := BitVec.xor_zero
  rw [accStep, accStep, tableIndex_eq_setWidth, tableIndex_eq_setWidth, hzero,
    xor_zext32_ushiftRight_eight]

/-- Eight remainder steps: the low byte goes through the table, the rest is shifted down. -/
theorem rsteps_eight (P x : Word) : rsteps P 8 x = entry P (x.setWidth 8) ^^^ (x >>> 8) := by
  have hlow : ∀ j < 8, (x ^^^ zext32 (x.setWidth 8)).getLsbD j = false := fun j hj => by
    have hwide : j < 32 := by omega
    simp [zext32, hj, hwide]
  have hhigh := rsteps_of_low_bits_zero P hlow
  rw [xor_zext32_ushiftRight_eight, rsteps_xor] at hhigh
  rw [entry, ← hhigh, BitVec.xor_comm, BitVec.xor_assoc, BitVec.xor_self, BitVec.xor_zero]

theorem accStep_buildTable (P c : Word) (d : Byte) :
    accStep (buildTable P) c d = rsteps P 8 (c ^^^ zext32 d) := by
  rw [rsteps_eight, accStep, lookup_buildTable, tableIndex_eq_setWidth,
    xor_zext32_ushiftRight_eight]

/-- Settles O20: the table holds the low byte's part of eight remainder steps. -/
theorem tableStepIsEightRemainderSteps : Obligations.TableStepIsEightRemainderSteps :=
  accStep_buildTable

theorem crcUpdate_cons (T : Table) (c : Word) (d : Byte) (data : List Byte) :
    crcUpdate T c (d :: data) = crcUpdate T (accStep T c d) data := rfl

theorem bitwiseUpdate_cons (P c : Word) (d : Byte) (data : List Byte) :
    bitwiseUpdate P c (d :: data) = bitwiseUpdate P (rsteps P 8 (c ^^^ zext32 d)) data := rfl

theorem crcUpdate_buildTable (P c : Word) (data : List Byte) :
    crcUpdate (buildTable P) c data = bitwiseUpdate P c data := by
  induction data generalizing c with
  | nil => rfl
  | cons d data ih => rw [crcUpdate_cons, accStep_buildTable, ih, bitwiseUpdate_cons]

theorem crc32_buildTable (P : Word) (data : List Byte) (S : Word) :
    crc32 (buildTable P) data S = crc32Bitwise P data S :=
  congrArg complement (crcUpdate_buildTable P (complement S) data)

/-- Settles O21, step by step along the data. -/
theorem tableChecksumIsBitSerialChecksum : Obligations.TableChecksumIsBitSerialChecksum :=
  crc32_buildTable

theorem crcUpdate_append (T : Table) (c : Word) (A B : List Byte) :
    crcUpdate T c (A ++ B) = crcUpdate T (crcUpdate T c A) B := by
  induction A generalizing c with
  | nil => rfl
  | cons d A ih => rw [List.cons_append, crcUpdate_cons, ih, crcUpdate_cons]

theorem crc32_append (T : Table) (A B : List Byte) (S : Word) :
    crc32 T (A ++ B) S = crc32 T B (crc32 T A S) := by
  simp only [crc32, crcUpdate_append, complement_complement]

/-- Settles O22: the complements between the two parts cancel. -/
theorem checksumStreams : Obligations.ChecksumStreams := fun T S A B => crc32_append T A B S

/-- Settles O23, by induction over the parts. -/
theorem checksumChunksOverAnyParts : Obligations.ChecksumChunksOverAnyParts := by
  intro T S parts
  induction parts generalizing S with
  | nil => exact (crc32_nil T S).symm
  | cons A parts ih => rw [List.foldl_cons, ih, List.flatten_cons, crc32_append]

/-- When bit 31 of `P` is set, the top bit of a remainder step says what bit was shifted out. -/
theorem rstep_getLsbD_31 {P : Word} (hP : P.getLsbD 31 = true) (r : Word) :
    (rstep P r).getLsbD 31 = r.getLsbD 0 := by
  rw [rstep_eq_xor, BitVec.getLsbD_xor]
  cases hr : r.getLsbD 0 <;> simp [hP]

theorem rstep_injective {P : Word} (hP : P.getLsbD 31 = true) : Function.Injective (rstep P) := by
  intro a b hab
  have hout : a.getLsbD 0 = b.getLsbD 0 := by
    rw [← rstep_getLsbD_31 hP a, hab, rstep_getLsbD_31 hP]
  rw [rstep_eq_xor, rstep_eq_xor, hout, BitVec.xor_left_inj] at hab
  refine BitVec.eq_of_getLsbD_eq fun j _ => ?_
  cases j with
  | zero => exact hout
  | succ j => simpa [Nat.add_comm] using congrArg (BitVec.getLsbD · j) hab

theorem rsteps_injective {P : Word} (hP : P.getLsbD 31 = true) (n : Nat) :
    Function.Injective (rsteps P n) := by
  induction n with
  | zero => exact Function.injective_id
  | succ n ih => exact ih.comp (rstep_injective hP)

theorem zext32_injective : Function.Injective zext32 := fun a b h => by
  simpa [zext32] using congrArg (BitVec.setWidth 8) h

theorem complement_injective : Function.Injective complement :=
  Function.LeftInverse.injective complement_complement

/-- Different accumulators stay different through any data. -/
theorem crcUpdate_injective {P : Word} (hP : P.getLsbD 31 = true) (data : List Byte) :
    Function.Injective (fun c => crcUpdate (buildTable P) c data) := by
  induction data with
  | nil => exact Function.injective_id
  | cons d data ih =>
    intro c c' h
    have hstep : accStep (buildTable P) c d = accStep (buildTable P) c' d := ih h
    rw [accStep_buildTable, accStep_buildTable] at hstep
    exact (BitVec.xor_left_inj _).mp (rsteps_injective hP 8 hstep)

/-- Settles O24: the two bytes give different accumulators, which stay different. -/
theorem oneChangedByteChangesTheChecksum : Obligations.OneChangedByteChangesTheChecksum := by
  intro P S pre post a b hP hab hcrc
  rw [crc32_append, crc32_append] at hcrc
  have hstep := crcUpdate_injective hP post (complement_injective hcrc)
  rw [accStep_buildTable, accStep_buildTable] at hstep
  exact hab (zext32_injective ((BitVec.xor_right_inj _).mp (rsteps_injective hP 8 hstep)))

/-- Under the all-zero table an accumulator step only shifts. -/
theorem accStep_buildTable_zero (c : Word) (d : Byte) : accStep (buildTable 0) c d = c >>> 8 := by
  rw [accStep_buildTable, rsteps_zero_poly, xor_zext32_ushiftRight_eight]

theorem crcUpdate_buildTable_zero (c : Word) (data : List Byte) :
    crcUpdate (buildTable 0) c data = c >>> (8 * data.length) := by
  induction data generalizing c with
  | nil => exact (BitVec.ushiftRight_zero c).symm
  | cons d data ih =>
    rw [crcUpdate_cons, ih, accStep_buildTable_zero, ← BitVec.shiftRight_add, List.length_cons,
      Nat.mul_succ, Nat.add_comm]

/-- Settles O25: four bytes shift every bit of the accumulator out. -/
theorem allZeroTableForgetsTheData : Obligations.AllZeroTableForgetsTheData := by
  intro data S
  rw [crc32, crcUpdate_buildTable_zero]
  split_ifs with hlen
  · rfl
  · rw [BitVec.ushiftRight_eq_zero (by omega)]
    rfl

end Sys2Proof.Machine
end

section
/-! Reading through a handle, and `BUILD`. The settling of O8 (20_memory.md rule R52), and of O27 to
O29 (40_table_builder.md section 2). -/

namespace Sys2Proof.Machine

/-- Settles O8: a constant handle names its table of `ROM`, a live one the table of its slot. -/
theorem tableReadFollowsTheHandle : Obligations.TableReadFollowsTheHandle := by
  refine fun s h i => ⟨fun hc => ?_, fun hl => ?_, fun hv => ?_⟩
  · rw [State.tableRead, tableOf_of_isConst s hc, Option.map_some]
  · obtain ⟨sl, hsl, hvalid, htable⟩ := tableOf_of_live hl
    exact ⟨sl, hsl, hvalid, by rw [State.tableRead, htable, Option.map_some]⟩
  · rw [State.tableRead, tableOf_eq_none.mpr hv, Option.map_none]

theorem validHandle_of_tableOf {s : State} {h : Handle} {T : Table}
    (htable : s.tableOf h = some T) : s.validHandle h = true := by
  cases hv : s.validHandle h with
  | true => rfl
  | false => simp [tableOf_eq_none.mpr hv] at htable

theorem alloc_eq_none_of_forall_valid {s : State} (h : ∀ sl ∈ s.slots, sl.valid = true) :
    s.alloc = none :=
  List.findIdx?_eq_none_iff.mpr fun sl hsl => by rw [h sl hsl]; rfl

theorem exists_alloc_of_free {s : State} (h : ∃ sl ∈ s.slots, sl.valid = false) :
    ∃ k, s.alloc = some k := by
  obtain ⟨sl, hsl, hfree⟩ := h
  refine Option.ne_none_iff_exists'.mp fun hnone => ?_
  simpa [hfree] using List.findIdx?_eq_none_iff.mp hnone sl hsl

/-- The handle `BUILD` is about to give out names nothing. -/
theorem validHandle_handleOfSlot_of_alloc {s : State} {k : Nat} (hk : k < 128)
    (halloc : s.alloc = some k) : s.validHandle (handleOfSlot k) = false := by
  obtain ⟨-, hfree, -⟩ := alloc_eq_some_iff.mp halloc
  exact validHandle_eq_false_of_validBit (isConst_handleOfSlot hk)
    ((slotOf_handleOfSlot hk).symm ▸ hfree)

theorem zext32_handleOfSlot {k : Nat} (hk : k < 128) :
    zext32 (handleOfSlot k) = BitVec.ofNat 32 (0x80 + k) := by
  refine BitVec.eq_of_toNat_eq ?_
  rw [zext32, BitVec.toNat_setWidth, handleOfSlot_toNat hk, BitVec.toNat_ofNat]

/-- Settles O27: `BUILD` ends as `afterBuild` says, in the slot `alloc` finds. -/
theorem buildCompletesInTheLowestFreeSlot : Obligations.BuildCompletesInTheLowestFreeSlot := by
  intro s hn hfree
  obtain ⟨k, halloc⟩ := exists_alloc_of_free hfree
  obtain ⟨hk, -, -⟩ := alloc_eq_some_iff.mp halloc
  have hk128 : k < 128 := hk.trans_le hn
  have htable := tableOf_afterBuild hn halloc
  exact ⟨k, _, _, halloc, hk, execBuild_some halloc,
    zext32_handleOfSlot hk128 ▸ answered_afterBuild s k, afterBuild_getElem?_self hk, rfl,
    lookup_buildTable s.arg0, fun j => afterBuild_getElem?_of_ne s,
    validHandle_handleOfSlot_of_alloc hk128 halloc, validHandle_of_tableOf htable, htable⟩

/-- Settles O28: with every slot valid `alloc` finds none, and the exception writes no slot. -/
theorem buildFailsWhenEverySlotIsValid : Obligations.BuildFailsWhenEverySlotIsValid :=
  fun s hvalid => ⟨_, execBuild_none (alloc_eq_none_of_forall_valid hvalid),
    answered_raise s .allocationFailure, raise_slots s _⟩

/-- Settles O29: the slot filled is a function of `ARG0`. -/
theorem buildIsDeterministic : Obligations.BuildIsDeterministic := by
  intro s s' k k' hpoly halloc halloc'
  obtain ⟨hk, -, -⟩ := alloc_eq_some_iff.mp halloc
  obtain ⟨hk', -, -⟩ := alloc_eq_some_iff.mp halloc'
  exact ⟨_, _, _, _, execBuild_some halloc, execBuild_some halloc', afterBuild_getElem?_self hk,
    afterBuild_getElem?_self hk', by rw [hpoly]⟩

end Sys2Proof.Machine
end

section
/-! `RELEASE` by class of handle, and a handle handed out again. The settling of O31 to O33
(40_table_builder.md section 3) and of O35 (70_reset_and_hazards.md rule R236). -/

namespace Sys2Proof.Machine

/-- Settles O31: `RELEASE` of a live handle ends as `afterRelease` says. -/
theorem releaseCompletesAndFreesTheSlot : Obligations.ReleaseCompletesAndFreesTheSlot := by
  intro s h hr
  have hbit : (s.afterRelease h).validBit (slotOf h) = false := by
    rw [validBit_afterRelease, if_pos rfl]
  exact ⟨_, execRelease_ok hr, answered_afterRelease s h, hbit,
    validHandle_eq_false_of_validBit (isConst_eq_false_of_releasable hr) hbit,
    fun j => afterRelease_getElem?_of_ne s⟩

/-- Settles O32: the exception writes no slot. -/
theorem releaseOfAnInvalidHandleChangesNothing :
    Obligations.ReleaseOfAnInvalidHandleChangesNothing :=
  fun s h hr => ⟨_, execRelease_invalid hr, answered_raise s (.releaseInvalidHandle h),
    raise_slots s _⟩

/-- A handle below `0x80` has bit 7 clear, so it is not dynamic. -/
theorem releasable_eq_false_of_lt (s : State) {h : Handle} (hlt : h.toNat < 0x80) :
    s.releasable h = false := by
  have hbit : h.getLsbD 7 = false := Nat.testBit_lt_two_pow hlt
  rw [State.releasable, State.live, isDyn, hbit, Bool.false_and, Bool.false_and]

/-- A dynamic handle is releasable exactly when its slot exists and is valid. -/
theorem releasable_handleOfSlot (s : State) {k : Nat} (hk : k < 128) :
    s.releasable (handleOfSlot k) = s.validBit k := by
  rw [State.releasable, State.live, isDyn_handleOfSlot hk, slotOf_handleOfSlot hk]
  cases hbit : s.validBit k with
  | false => exact Bool.and_false _
  | true => rw [decide_eq_true (lt_nslots_of_validBit hbit), Bool.true_and]

theorem validBit_of_ge {s : State} {k : Nat} (hk : s.nslots ≤ k) : s.validBit k = false := by
  rw [State.validBit, List.getElem?_eq_none hk, Option.any_none]

theorem handleOfConst_toNat_lt (c : Fin 4) : (handleOfConst c).toNat < 0x80 := by
  revert c
  decide

/-- Settles O33: `NULL`, the constant and the unassigned handles below `0x80` have bit 7 clear; the
rest name a slot. -/
theorem onlyLiveSlotsAreReleasable : Obligations.OnlyLiveSlotsAreReleasable := by
  refine fun s hn => ⟨releasable_eq_false_of_lt s (by decide), fun c =>
    ⟨releasable_eq_false_of_lt s (handleOfConst_toNat_lt c), ?_⟩,
    fun h _ hle => releasable_eq_false_of_lt s (Nat.lt_succ_of_le hle), fun k hge hle => ?_,
    fun k hk => releasable_handleOfSlot s (hk.trans_le hn)⟩
  · exact validHandle_of_tableOf (tableOf_handleOfConst s c)
  · rw [releasable_handleOfSlot s (Nat.lt_succ_of_le hle), validBit_of_ge hge]

theorem handleOfSlot_slotOf {h : Handle} (hge : 0x80 ≤ h.toNat) : handleOfSlot (slotOf h) = h := by
  have hlt := h.isLt
  refine BitVec.eq_of_toNat_eq ?_
  simp only [handleOfSlot, slotOf, BitVec.extractLsb'_toNat, BitVec.toNat_ofNat,
    Nat.shiftRight_zero]
  omega

theorem toNat_ge_of_releasable {s : State} {h : Handle} (hr : s.releasable h = true) :
    0x80 ≤ h.toNat := by
  by_contra hlt
  simp [releasable_eq_false_of_lt s (Nat.not_le.mp hlt)] at hr

/-- When every lower slot is valid, the slot released is the next one `alloc` finds. -/
theorem alloc_afterRelease {s : State} {h : Handle} (hr : s.releasable h = true)
    (hlower : ∀ j < slotOf h, s.validBit j = true) :
    (s.afterRelease h).alloc = some (slotOf h) := by
  have hbit : s.validBit (slotOf h) = true := (Bool.and_eq_true_iff.mp hr).2
  refine alloc_eq_some_iff.mpr ⟨?_, ?_, fun j hj => ?_⟩
  · rw [State.nslots, State.afterRelease, List.length_modify]
    exact lt_nslots_of_validBit hbit
  · rw [validBit_afterRelease, if_pos rfl]
  · rw [validBit_afterRelease, if_neg hj.ne', hlower j hj]

/-- Settles O35: `BUILD` takes the slot just released, and its handle is the one released. -/
theorem releasedHandleIsHandedOutAgain : Obligations.ReleasedHandleIsHandedOutAgain := by
  intro s h hn hr hlower
  have halloc := alloc_afterRelease hr hlower
  obtain ⟨-, -, hnslots, -⟩ := answered_afterRelease s h
  have hanswered := answered_afterBuild (s.afterRelease h) (slotOf h)
  have htable := tableOf_afterBuild (hnslots.trans_le hn) halloc
  rw [handleOfSlot_slotOf (toNat_ge_of_releasable hr)] at hanswered htable
  exact ⟨_, execRelease_ok hr, _, _, execBuild_some halloc, hanswered, htable, lookup_buildTable _⟩

end Sys2Proof.Machine
end

section
/-! `CRC`. The settling of O36 and O37 (41_checksum_accumulator.md section 2), of O39 and O40
(43_arithmetic_and_laws.md section 4) and of O42 (70_reset_and_hazards.md rule R238). -/

namespace Sys2Proof.Machine

/-- Settles O36: a valid handle names a table, and the data is there. -/
theorem crcCompletesWithTheChecksum : Obligations.CrcCompletesWithTheChecksum := by
  intro s h hv hdata
  obtain ⟨T, htable⟩ := tableOf_of_valid hv
  exact ⟨T, _, htable, execCrc_of_delivered htable hdata, answered_finish s _ _,
    finish_slots s _ _⟩

/-- Settles O37: the exception writes no slot and records the host's fault. -/
theorem crcOfAnInvalidHandleChangesNothing : Obligations.CrcOfAnInvalidHandleChangesNothing :=
  fun s h hv => ⟨_, _, exec_crc_of_validHandle_eq_false hv, answered_raise s (.crcInvalidHandle h),
    raise_slots s _, raise_hostFaults s _⟩

/-- Settles O39: tables with equal entries are equal, and the checksum is a function of the
table. -/
theorem checksumDependsOnTheTableOnly : Obligations.ChecksumDependsOnTheTableOnly := by
  intro s s' h h' T T' htable htable' hentries harg0 harg1 hdata hdelivered
  have hdelivered' : s'.arg1.toNat ≤ s'.data.length := by rwa [← harg1, ← hdata]
  refine ⟨_, _, execCrc_of_delivered htable hdelivered,
    execCrc_of_delivered htable' hdelivered', ?_⟩
  rw [finish_response, finish_response, table_ext hentries, harg0, harg1, hdata]

/-- One accumulator step from zero looks the byte up. -/
theorem accStep_zero (T : Table) (b : Byte) : accStep T 0 b = lookup T b := by
  have hindex : tableIndex 0 b = b := by
    simp [tableIndex_eq_setWidth, zext32]
  have hshift : (0 : Word) >>> 8 = 0 := rfl
  rw [accStep, hindex, hshift]
  exact BitVec.xor_zero

/-- The seed `0xFFFFFFFF` is complemented to the accumulator zero. -/
theorem crc32_singleton_allOnes (T : Table) (b : Byte) :
    crc32 T [b] 0xFFFFFFFF = complement (lookup T b) :=
  congrArg complement (accStep_zero T b)

/-- Settles O40: the one byte is looked up, and the entry is complemented. -/
theorem oneByteCrcReadsATableEntry : Obligations.OneByteCrcReadsATableEntry := by
  intro s h b hv hseed hlen hdata
  obtain ⟨T, htable⟩ := tableOf_of_valid hv
  have hone : s.arg1.toNat = 1 := congrArg BitVec.toNat hlen
  have hcrc : crc32 T (s.data.take s.arg1.toNat) s.arg0 = complement (lookup T b) := by
    rw [hone, hdata, hseed]
    exact crc32_singleton_allOnes T b
  refine ⟨_, lookup T b, by rw [State.tableRead, htable, Option.map_some],
    execCrc_of_delivered htable (by rw [hone, hdata]; rfl), ?_⟩
  exact hcrc ▸ answered_finish s .ok _

/-- The state once the bytes `more` are delivered, beat by beat. -/
def State.afterBeats (more : List Byte) (s : State) : State :=
  more.foldl (fun u d => u.deliverBeat d) s

/-- Beats extend the data of the request at the interface and change nothing else. -/
theorem afterBeats_eq {s : State} {r : Request} {rest : List Request}
    (hreq : s.requests = r :: rest) (more : List Byte) :
    s.afterBeats more = { s with requests := { r with data := r.data ++ more } :: rest } := by
  induction more generalizing s r with
  | nil =>
    rw [List.append_nil, ← hreq]
    rfl
  | cons d more ih =>
    have hbeat : s.deliverBeat d =
        { s with requests := { r with data := r.data ++ [d] } :: rest } := by
      simp only [State.deliverBeat, hreq]
    have hcons : s.afterBeats (d :: more) = (s.deliverBeat d).afterBeats more := rfl
    rw [hcons, hbeat, ih rfl, List.append_assoc]
    rfl

section
variable {s : State} (hreq : s.requests ≠ []) (more : List Byte)
include hreq

theorem afterBeats_slots : (s.afterBeats more).slots = s.slots := by
  obtain ⟨r, rest, hcons⟩ := List.exists_cons_of_ne_nil hreq
  rw [afterBeats_eq hcons]

theorem afterBeats_lenw : (s.afterBeats more).lenw = s.lenw := by
  obtain ⟨r, rest, hcons⟩ := List.exists_cons_of_ne_nil hreq
  rw [afterBeats_eq hcons]

theorem afterBeats_requests_tail : (s.afterBeats more).requests.tail = s.requests.tail := by
  obtain ⟨r, rest, hcons⟩ := List.exists_cons_of_ne_nil hreq
  rw [afterBeats_eq hcons, hcons, List.tail_cons, List.tail_cons]

theorem afterBeats_request :
    (s.afterBeats more).request = { s.request with data := s.data ++ more } := by
  obtain ⟨r, rest, hcons⟩ := List.exists_cons_of_ne_nil hreq
  simp [State.request, State.data, afterBeats_eq hcons, hcons]

theorem afterBeats_data : (s.afterBeats more).data = s.data ++ more :=
  congrArg Request.data (afterBeats_request hreq more)

theorem afterBeats_arg0 : (s.afterBeats more).arg0 = s.arg0 := by
  rw [State.arg0, State.arg0, afterBeats_request hreq]

theorem afterBeats_arg1 : (s.afterBeats more).arg1 = s.arg1 := by
  rw [State.arg1, State.arg1, afterBeats_request hreq, afterBeats_lenw hreq]

theorem afterBeats_decoded : (s.afterBeats more).decoded = s.decoded := by
  rw [State.decoded, State.decoded, afterBeats_request hreq]

/-- `CRC` completes once the missing bytes are delivered, with the checksum of all bytes. -/
theorem execCrc_afterBeats {h : Handle} {T : Table} (htable : s.tableOf h = some T)
    (hlen : s.arg1.toNat = s.data.length + more.length) :
    execCrc h (s.afterBeats more) =
      .next ((s.afterBeats more).finish .ok (crc32 T (s.data ++ more) s.arg0)) := by
  have htable' : (s.afterBeats more).tableOf h = some T :=
    (tableOf_congr (afterBeats_slots hreq more) h).trans htable
  have hall : (s.afterBeats more).arg1.toNat = (s.afterBeats more).data.length := by
    rw [afterBeats_arg1 hreq, afterBeats_data hreq, List.length_append, hlen]
  rw [execCrc_of_delivered htable' hall.le, hall, List.take_length, afterBeats_data hreq,
    afterBeats_arg0 hreq]

theorem answered_finish_afterBeats (st : Status) (w : Word) :
    s.Answered ((s.afterBeats more).finish st w) st w :=
  ⟨rfl, afterBeats_requests_tail hreq more, congrArg List.length (afterBeats_slots hreq more),
    afterBeats_lenw hreq more⟩

end

/-- Settles O42: `CRC` waits below `ARG1` bytes, and beats add the bytes it waits for. -/
theorem dataUnderrunIsStuckUntilTheBytesArrive :
    Obligations.DataUnderrunIsStuckUntilTheBytesArrive := by
  intro s h hv
  obtain ⟨T, htable⟩ := tableOf_of_valid hv
  refine ⟨fun hless => ?_, fun hreq more hlen => ?_⟩
  · exact (execCrc_eq htable).trans (if_neg (Nat.not_le.mpr hless))
  · exact ⟨T, _, htable, execCrc_afterBeats hreq more htable hlen,
      answered_finish_afterBeats hreq more .ok _⟩

end Sys2Proof.Machine
end

section
/-! The whole machine: what a step runs, what waits behind it, and when it goes on. The settling of
O44 and O45 (20_memory.md section 7, 60_exceptions.md rule R207), of O47 (20_memory.md rule R62), of
O48 (43_arithmetic_and_laws.md rule R177) and of O58 (60_exceptions.md rule R199). -/

namespace Sys2Proof.Machine

/-- Settles O44: the step decodes the word at the interface and runs it. -/
theorem stepRunsTheDecodedCommand : Obligations.StepRunsTheDecodedCommand :=
  fun _ _ _ _ => step_of_decode_ok

/-- Settles O45: with no request there is nothing to decode. -/
theorem idleCoreKeepsItsState : Obligations.IdleCoreKeepsItsState :=
  fun _ => step_of_requests_eq_nil

section
variable {s : State} (hreq : s.requests ≠ []) (r : Request)
include hreq

theorem submit_request : (s.submit r).request = s.request := by
  obtain ⟨q, rest, hcons⟩ := List.exists_cons_of_ne_nil hreq
  simp [State.submit, State.request, hcons]

theorem submit_decoded : (s.submit r).decoded = s.decoded := by
  rw [State.decoded, State.decoded, submit_request hreq]

theorem submit_arg0 : (s.submit r).arg0 = s.arg0 :=
  congrArg Request.arg0 (submit_request hreq r)

theorem submit_arg1 : (s.submit r).arg1 = s.arg1 := by
  rw [State.arg1, State.arg1, submit_request hreq]
  rfl

theorem submit_data : (s.submit r).data = s.data :=
  congrArg Request.data (submit_request hreq r)

theorem submit_requests_ne_nil : (s.submit r).requests ≠ [] :=
  List.append_ne_nil_of_left_ne_nil hreq _

theorem submit_requests_tail : (s.submit r).requests.tail = s.requests.tail ++ [r] :=
  List.tail_append_of_ne_nil hreq

theorem submit_finish (st : Status) (w : Word) :
    (s.submit r).finish st w = (s.finish st w).submit r := by
  rw [State.finish, submit_requests_tail hreq]
  rfl

theorem submit_raise (c : Cause) : (s.submit r).raise c = (s.raise c).submit r :=
  submit_finish (s := { s with draws := s.draws + 1, hostFaults := s.hostFaults ++ c.hostFaults })
    hreq r _ _

theorem submit_afterBuild (k : Nat) :
    (s.submit r).afterBuild k = (s.afterBuild k).submit r := by
  rw [State.afterBuild, submit_requests_tail hreq, submit_arg0 hreq]
  rfl

theorem submit_afterRelease (h : Handle) :
    (s.submit r).afterRelease h = (s.afterRelease h).submit r := by
  rw [State.afterRelease, submit_requests_tail hreq]
  rfl

end

/-- Settles O47: every way a command can end reads the head of the requests only and passes the tail
on. -/
theorem submittedRequestsWaitTheirTurn : Obligations.SubmittedRequestsWaitTheirTurn := by
  intro s t r hreq hstep
  have hreq' := submit_requests_ne_nil hreq r
  have hdecoded := submit_decoded hreq r
  obtain ⟨hidle, -⟩ | ⟨-, ⟨k, hd, halloc, rfl⟩ | ⟨hd, halloc, rfl⟩ | ⟨a, hd, hr, rfl⟩ |
    ⟨a, hd, hr, rfl⟩ | ⟨a, T, hd, htable, hdata, rfl⟩ | ⟨a, hd, htable, rfl⟩ | ⟨e, hd, rfl⟩⟩ :=
    step_cases hstep
  · exact absurd hidle hreq
  · rw [step_of_decoded_ok hreq' (hdecoded.trans hd), ← submit_afterBuild hreq]
    exact execBuild_some halloc
  · rw [step_of_decoded_ok hreq' (hdecoded.trans hd), ← submit_raise hreq]
    exact execBuild_none halloc
  · rw [step_of_decoded_ok hreq' (hdecoded.trans hd), ← submit_afterRelease hreq]
    exact execRelease_ok hr
  · rw [step_of_decoded_ok hreq' (hdecoded.trans hd), ← submit_raise hreq]
    exact execRelease_invalid hr
  · rw [step_of_decoded_ok hreq' (hdecoded.trans hd), ← submit_finish hreq,
      ← submit_arg1 hreq r, ← submit_data hreq r, ← submit_arg0 hreq r]
    refine execCrc_of_delivered htable ?_
    rwa [submit_arg1 hreq, submit_data hreq]
  · rw [step_of_decoded_ok hreq' (hdecoded.trans hd), ← submit_raise hreq]
    exact execCrc_invalid htable
  · rw [step_of_decoded_error hreq' (hdecoded.trans hd), submit_request hreq,
      submit_raise hreq]

/-- Only a `CRC` can fail to go on, and only for want of data. -/
theorem exec_next_or_underrun (i : Instr) (s : State) :
    (∃ t, exec i s = .next t) ∨ ((∃ h, i = .crc h) ∧ s.data.length < s.arg1.toNat) := by
  cases i with
  | build =>
    cases halloc : s.alloc with
    | none => exact .inl ⟨_, execBuild_none halloc⟩
    | some k => exact .inl ⟨_, execBuild_some halloc⟩
  | release h =>
    cases hr : s.releasable h with
    | false => exact .inl ⟨_, execRelease_invalid hr⟩
    | true => exact .inl ⟨_, execRelease_ok hr⟩
  | crc h =>
    cases htable : s.tableOf h with
    | none => exact .inl ⟨_, execCrc_invalid htable⟩
    | some T =>
      obtain hle | hlt := le_or_gt s.arg1.toNat s.data.length
      · exact .inl ⟨_, execCrc_of_delivered htable hle⟩
      · exact .inr ⟨⟨h, rfl⟩, hlt⟩

/-- A complete request has delivered every byte the core reads. -/
theorem arg1_le_of_complete {s : State} {r : Request} {rest : List Request}
    (hreq : s.requests = r :: rest) (hcomplete : r.complete s.lenw = true) :
    s.arg1.toNat ≤ s.data.length := by
  have hrequest : s.request = r := by rw [State.request, hreq, List.headD_cons]
  have hlen : r.data.length = r.arg1.toNat :=
    of_decide_eq_true (Bool.and_eq_true_iff.mp hcomplete).2
  rw [State.arg1, State.data, hrequest, hlen, toLen, BitVec.toNat_ofNat]
  exact (Nat.mod_le _ _).trans (Nat.mod_le _ _)

/-- Settles O48: what goes on is answered, and only a `CRC` with bytes missing does not go on. -/
theorem everyCompleteRequestIsAnswered : Obligations.EveryCompleteRequestIsAnswered := by
  intro s r rest hreq hcomplete
  have hne : s.requests ≠ [] := by simp [hreq]
  have hnext : ∃ t, step s = .next t := by
    cases hd : decode r.cmd with
    | error e => exact ⟨_, step_of_decode_error hreq hd⟩
    | ok i =>
      rw [step_of_decode_ok hreq hd]
      obtain hnext | ⟨⟨h, rfl⟩, hlt⟩ := exec_next_or_underrun i s
      · exact hnext
      · obtain hdata | hnot := hcomplete
        · exact absurd hlt (Nat.not_lt.mpr (arg1_le_of_complete hreq hdata))
        · exact absurd hd (hnot h)
  obtain ⟨t, hstep⟩ := hnext
  obtain ⟨st, w, n, ⟨hresponse, hrequests, -⟩, -⟩ := step_answered hstep hne
  exact ⟨t, hstep, by rw [hrequests, hreq, List.tail_cons], hresponse ▸ rfl⟩

/-- A command that goes on is safe exactly when nothing is recorded beside its end. -/
theorem safe_next_raise {s : State} (hfaults : s.hostFaults = []) (c : Cause) :
    safe (.next (s.raise c)) = c.hostFaults.isEmpty := by
  rw [safe, raise_hostFaults, hfaults, List.nil_append]

theorem safe_next_of_hostFaults_eq_nil {t : State} (hfaults : t.hostFaults = []) :
    safe (.next t) = true := List.isEmpty_iff.mpr hfaults

theorem safe_execBuild {s : State} (hfaults : s.hostFaults = []) : safe (execBuild s) = true := by
  cases halloc : s.alloc with
  | none => rw [execBuild_none halloc, safe_next_raise hfaults]; rfl
  | some k => rw [execBuild_some halloc]; exact safe_next_of_hostFaults_eq_nil hfaults

theorem safe_execRelease {s : State} (hfaults : s.hostFaults = []) (h : Handle) :
    safe (execRelease h s) = true := by
  cases hr : s.releasable h with
  | false => rw [execRelease_invalid hr, safe_next_raise hfaults]; rfl
  | true => rw [execRelease_ok hr]; exact safe_next_of_hostFaults_eq_nil hfaults

/-- A `CRC` is safe exactly when its handle names a table and its data is delivered. -/
theorem safe_execCrc {s : State} (hfaults : s.hostFaults = []) (h : Handle) :
    safe (execCrc h s) = (s.validHandle h && decide (s.arg1.toNat ≤ s.data.length)) := by
  cases htable : s.tableOf h with
  | none =>
    rw [execCrc_invalid htable, safe_next_raise hfaults, tableOf_eq_none.mp htable]
    rfl
  | some T =>
    rw [execCrc_eq htable, validHandle_of_tableOf htable, Bool.true_and]
    split_ifs with hdata
    · rw [decide_eq_true hdata]
      exact safe_next_of_hostFaults_eq_nil hfaults
    · rw [decide_eq_false hdata]
      rfl

/-- Settles O58, by the command at the interface: an illegal word and a `CRC` the host has not
prepared are the two that are not safe. -/
theorem onlyMisuseIsUnsafe : Obligations.OnlyMisuseIsUnsafe := by
  intro s hfaults
  cases hreq : s.requests with
  | nil =>
    rw [step_of_requests_eq_nil hreq, safe_next_of_hostFaults_eq_nil hfaults]
    simp [State.wellUsed, hreq]
  | cons r rest =>
    have hne : s.requests ≠ [] := by simp [hreq]
    cases hd : s.decoded with
    | error e =>
      rw [step_of_decoded_error hne hd, safe_next_raise hfaults]
      simp [State.wellUsed, hreq, hd, Cause.hostFaults]
    | ok i =>
      rw [step_of_decoded_ok hne hd]
      cases i with
      | build =>
        refine (safe_execBuild hfaults).trans ?_
        simp [State.wellUsed, hreq, hd]
      | release h =>
        refine (safe_execRelease hfaults h).trans ?_
        simp [State.wellUsed, hreq, hd]
      | crc h =>
        refine (safe_execCrc hfaults h).trans ?_
        simp [State.wellUsed, hreq, hd]

end Sys2Proof.Machine
end

section
/-! Command words, classes of handle, and one write to the table store or to `DATA`. The settling of
O1 and O4 (30_encoding.md sections 1 and 2), of O7 (30_encoding.md section 4), and of O10 and O11
(20_memory.md rules R53 and R54). -/

namespace Sys2Proof.Machine

/-- Settles O1: `decode` succeeds exactly when the three fields are those of a command, and
`encode` packs exactly these fields. -/
theorem decodeInvertsEncode : Obligations.DecodeInvertsEncode := decode_eq_ok_iff_eq_encode

/-- Settles O4, by decoding the six words. -/
theorem wordsFromTheLayoutDecode : Obligations.WordsFromTheLayoutDecode := by
  unfold Obligations.WordsFromTheLayoutDecode
  decide

theorem isNull_iff (h : Handle) : isNull h = true ↔ h.toNat = 0x00 := by
  rw [isNull, beq_iff_eq, ← BitVec.toNat_inj]
  rfl

theorem isConst_iff (h : Handle) : isConst h = true ↔ 0x01 ≤ h.toNat ∧ h.toNat ≤ 0x04 := by
  simp [isConst]

theorem slotOf_eq_mod (h : Handle) : slotOf h = h.toNat % 128 := by
  simp [slotOf]

/-- The dynamic handles are the `NSLOTS` values from `0x80` on. -/
theorem isDyn_iff (n : Nat) (h : Handle) :
    isDyn n h = true ↔ 0x80 ≤ h.toNat ∧ h.toNat < 0x80 + n := by
  have hlt := h.isLt
  have hbit : h.getLsbD 7 = decide (0x80 ≤ h.toNat) :=
    BitVec.msb_eq_getLsbD_last h ▸ BitVec.msb_eq_decide h
  rw [isDyn, Bool.and_eq_true, hbit, decide_eq_true_iff, decide_eq_true_iff, slotOf_eq_mod]
  omega

theorem handleOfConst_constOf {h : Handle} (hc : isConst h = true) :
    handleOfConst (constOf h) = h := by
  obtain ⟨hlo, hhi⟩ := (isConst_iff h).mp hc
  refine BitVec.eq_of_toNat_eq ?_
  simp only [handleOfConst, constOf, Fin.val_ofNat, BitVec.toNat_ofNat]
  omega

theorem isConst_iff_exists (h : Handle) : isConst h = true ↔ ∃ c, h = handleOfConst c := by
  constructor
  · exact fun hc => ⟨constOf h, (handleOfConst_constOf hc).symm⟩
  · rintro ⟨c, rfl⟩
    exact isConst_handleOfConst c

theorem isDyn_iff_exists {n : Nat} (hn : n ≤ 128) (h : Handle) :
    isDyn n h = true ↔ ∃ k, k < n ∧ h = handleOfSlot k := by
  constructor
  · intro hdyn
    exact ⟨slotOf h, of_decide_eq_true (Bool.and_eq_true_iff.mp hdyn).2,
      (handleOfSlot_slotOf ((isDyn_iff n h).mp hdyn).1).symm⟩
  · rintro ⟨k, hk, rfl⟩
    rw [isDyn_handleOfSlot (hk.trans_le hn), decide_eq_true hk]

/-- The handles of no class lie between the constant and the dynamic ones, and above these. -/
theorem unassigned_iff (n : Nat) (h : Handle) :
    (isNull h = false ∧ isConst h = false ∧ isDyn n h = false) ↔
      (0x05 ≤ h.toNat ∧ h.toNat ≤ 0x7F) ∨ 0x80 + n ≤ h.toNat := by
  rw [Bool.eq_false_iff, Bool.eq_false_iff, Bool.eq_false_iff, ne_eq, ne_eq, ne_eq, isNull_iff,
    isConst_iff, isDyn_iff]
  omega

/-- Settles O7: each class is a range of values. -/
theorem handleClassesPartitionTheHandles : Obligations.HandleClassesPartitionTheHandles :=
  fun n hn => ⟨isNull_iff, isConst_iff_exists, isDyn_iff_exists hn, unassigned_iff n,
    constOf_handleOfConst, fun _ hk =>
      ⟨slotOf_handleOfSlot (hk.trans_le hn), handleOfSlot_toNat (hk.trans_le hn)⟩⟩

/-- Settles O10: one slot of the list is modified, and one entry of its table is set. -/
theorem tableWriteWritesOneEntry : Obligations.TableWriteWritesOneEntry := by
  intro s k sl i v hsl
  refine ⟨{ sl with table := sl.table.set i.toNat v i.isLt }, ?_, rfl, ?_, fun j hj => ?_,
    fun k' hk' => List.getElem?_modify_ne _ _ hk'.symm, List.length_modify .., rfl, rfl⟩
  · simp [State.tableWrite, hsl]
  · rw [lookup_set, if_pos rfl]
  · rw [lookup_set, if_neg hj]

/-- Settles O11: a beat is appended to the data of the request at the interface. -/
theorem deliveredByteIsReadAtItsPosition : Obligations.DeliveredByteIsReadAtItsPosition := by
  intro s d hreq
  have hdata : (s.deliverBeat d).data = s.data ++ [d] := afterBeats_data hreq [d]
  refine ⟨?_, fun k hk => ?_, deliverBeat_slots s d, afterBeats_arg0 hreq [d],
    afterBeats_arg1 hreq [d], afterBeats_decoded hreq [d]⟩
  · rw [State.dataRead, hdata]
    exact List.getElem?_concat_length
  · rw [State.dataRead, State.dataRead, hdata]
    exact List.getElem?_append_left hk

end Sys2Proof.Machine
end

section
/-! The spec's check values, computed without tables. The settling of O12 (42_constant_tables.md
rule R154) and of O43 (95_test_vectors.md V1). -/

namespace Sys2Proof.Machine

/-- A checksum under a constant table needs the polynomial only. -/
theorem crc32_rom (c : Fin 4) (data : List Byte) (S : Word) :
    crc32 (rom c) data S = crc32Bitwise polyC[c] data S := crc32_buildTable _ data S

set_option maxRecDepth 4000 in
/-- Settles O12, entry by entry and bit by bit from the four polynomials: 72 remainder steps nest
deeper than the default recursion depth. -/
theorem checkValuesOfTheConstantTables : Obligations.CheckValuesOfTheConstantTables := by
  unfold Obligations.CheckValuesOfTheConstantTables
  have hlookup : ∀ c, lookup (rom c) = entry polyC[c] := fun c => funext (lookup_rom c)
  simp only [hlookup, crc32_rom]
  decide

/-- The checksum of "123456789" under the IEEE table. -/
theorem crc32_rom_zero_checkData :
    crc32 (rom 0) [0x31, 0x32, 0x33, 0x34, 0x35, 0x36, 0x37, 0x38, 0x39] 0 = 0xCBF43926 :=
  congrArg Prod.snd (List.head_eq_of_cons_eq checkValuesOfTheConstantTables)

theorem toLen_of_lt {lenw : Nat} {v : LenWord} (hv : v.toNat < 2 ^ lenw) : toLen lenw v = v := by
  rw [toLen, Nat.mod_eq_of_lt hv, BitVec.ofNat_toNat, BitVec.setWidth_eq]

/-- Settles O43: handle 1 names the IEEE table in every state, and `LENW` of 4 or more holds the
length 9. -/
theorem knownAnswerTest : Obligations.KnownAnswerTest := by
  intro s rest hlenw hreq
  have hdecode : decode 0x00000103 = .ok (.crc (handleOfConst 0)) := by decide
  have hlen : s.arg1 = 9 := by
    rw [State.arg1, State.request, hreq, List.headD_cons]
    exact toLen_of_lt (lt_of_lt_of_le (by decide) (Nat.pow_le_pow_right (by decide) hlenw))
  have harg0 : s.arg0 = 0 := by rw [State.arg0, State.request, hreq]; rfl
  have hdata : s.data = [0x31, 0x32, 0x33, 0x34, 0x35, 0x36, 0x37, 0x38, 0x39] := by
    rw [State.data, State.request, hreq]; rfl
  have hdelivered : s.arg1.toNat ≤ s.data.length := by rw [hlen, hdata]; decide
  have hcrc : crc32 (rom 0) (s.data.take s.arg1.toNat) s.arg0 = 0xCBF43926 := by
    rw [hlen, hdata, harg0]
    exact crc32_rom_zero_checkData
  exact ⟨_, (step_of_decode_ok hreq hdecode).trans
    (execCrc_of_delivered (tableOf_handleOfConst s 0) hdelivered),
    hcrc ▸ answered_finish s .ok _, finish_slots s _ _⟩

end Sys2Proof.Machine
end
